-- ==== Sys2Proof/Word.lean ====
section
/-! DEFINITION. The words of the machine: the byte, the 16-bit word of `I`, `PC`, the stack slots and an opcode, and
the two 16-way numbers (a register, a key). Widths as 00_scope.md R4 gives them. -/

namespace Sys2Proof

/-- One byte: a general register, a memory cell, a timer (00_scope.md R4). -/
abbrev Byte := BitVec 8

/-- Sixteen bits: an opcode, `I`, `PC`, a call-stack slot (00_scope.md R4). -/
abbrev Word := BitVec 16

/-- The number of a general register, V0 to VF: a name, never added or masked (10_state.md R20). -/
abbrev Reg := Fin 16

/-- The index of a keypad flag, 0 to 15 (10_state.md R28, R34). -/
abbrev Key := Fin 16

/-- The register that doubles as the only flag, `VF = V[15]` (10_state.md R21). -/
abbrev Reg.vf : Reg := 15

end Sys2Proof
end

