-- ==== Sys2Proof/Syntax.lean ====
section
/-! DEFINITION. The instructions: one constructor per row of spec/opcode_table.json, in the table's order, with the
operand fields the row names (30_encoding.md R72 to R74). The pattern of each row stands beside its constructor. -/

namespace Sys2Proof

/-- The instruction set. A register field is a register number, an immediate keeps the width its field has
(30_encoding.md R73); the six `NOP` rows carry the twelve bits below their class nibble, so that every one of the
65,536 opcodes is one instruction (R76). -/
inductive Instr where
  /-- 00E0 -/
  | cls
  /-- 00EE -/
  | ret
  /-- 1nnn -/
  | jp (nnn : BitVec 12)
  /-- 2nnn -/
  | call (nnn : BitVec 12)
  /-- 3xkk -/
  | seImm (x : Reg) (kk : Byte)
  /-- 4xkk -/
  | sneImm (x : Reg) (kk : Byte)
  /-- 5xy0 -/
  | seReg (x y : Reg)
  /-- 9xy0 -/
  | sneReg (x y : Reg)
  /-- 6xkk -/
  | ldImm (x : Reg) (kk : Byte)
  /-- 7xkk -/
  | addImm (x : Reg) (kk : Byte)
  /-- 8xy0 -/
  | ldReg (x y : Reg)
  /-- 8xy1 -/
  | orReg (x y : Reg)
  /-- 8xy2 -/
  | andReg (x y : Reg)
  /-- 8xy3 -/
  | xorReg (x y : Reg)
  /-- 8xy4 -/
  | addReg (x y : Reg)
  /-- 8xy5 -/
  | subReg (x y : Reg)
  /-- 8xy6 -/
  | shrReg (x y : Reg)
  /-- 8xy7 -/
  | subnReg (x y : Reg)
  /-- 8xyE -/
  | shlReg (x y : Reg)
  /-- Annn -/
  | ldI (nnn : BitVec 12)
  /-- Bnnn; x, the top nibble of nnn, is read as a register number under `Q_JUMP_OFFSET = VX` -/
  | jpV0 (nnn : BitVec 12)
  /-- Cxkk -/
  | rnd (x : Reg) (kk : Byte)
  /-- Dxyn; n is a row count, 0 to 15 -/
  | drw (x y : Reg) (n : Fin 16)
  /-- Ex9E -/
  | skp (x : Reg)
  /-- ExA1 -/
  | sknp (x : Reg)
  /-- Fx07 -/
  | ldVxDt (x : Reg)
  /-- Fx15 -/
  | ldDtVx (x : Reg)
  /-- Fx18 -/
  | ldStVx (x : Reg)
  /-- Fx0A -/
  | ldVxK (x : Reg)
  /-- Fx1E -/
  | addI (x : Reg)
  /-- Fx29 -/
  | ldF (x : Reg)
  /-- Fx33 -/
  | ldB (x : Reg)
  /-- Fx55; x is also the index of the last register transferred -/
  | stRegs (x : Reg)
  /-- Fx65; x is also the index of the last register transferred -/
  | ldRegs (x : Reg)
  /-- 0---: 0nnn other than 00E0 and 00EE -/
  | nop0 (low : BitVec 12)
  /-- 5---: 5xyn with n not 0 -/
  | nop5 (low : BitVec 12)
  /-- 8---: 8xyn with n in 8 to D or F -/
  | nop8 (low : BitVec 12)
  /-- 9---: 9xyn with n not 0 -/
  | nop9 (low : BitVec 12)
  /-- E---: Exkk with kk other than 9E and A1 -/
  | nopE (low : BitVec 12)
  /-- F---: Fxkk with kk none of the nine listed -/
  | nopF (low : BitVec 12)
  deriving DecidableEq, Repr

end Sys2Proof
end

