-- ==== Sys2Proof/WellFormed.lean ====
section
/-! DEFINITION. Which instruction terms are instructions of the machine. Field widths are in the types; what is left
to check is that a no-op of a class stands for an unmatched opcode (30_encoding.md R76's table, row by row). -/

namespace Sys2Proof

/-- The sub-opcodes of class 8 (30_encoding.md R75). -/
def aluSubOpcodes : List (BitVec 4) := [0x0, 0x1, 0x2, 0x3, 0x4, 0x5, 0x6, 0x7, 0xE]

/-- The sub-opcodes of class E (R75). -/
def keySubOpcodes : List (BitVec 8) := [0x9E, 0xA1]

/-- The sub-opcodes of class F (R75). -/
def miscSubOpcodes : List (BitVec 8) := [0x07, 0x0A, 0x15, 0x18, 0x1E, 0x29, 0x33, 0x55, 0x65]

/-- A term is well-formed unless it is a no-op whose bits match a pattern of its class (R76). -/
def Instr.wf : Instr → Bool
  | .nop0 low => low != 0x0E0#12 && low != 0x0EE#12
  | .nop5 low => low.extractLsb' 0 4 != 0x0#4
  | .nop8 low => !aluSubOpcodes.contains (low.extractLsb' 0 4)
  | .nop9 low => low.extractLsb' 0 4 != 0x0#4
  | .nopE low => !keySubOpcodes.contains (low.extractLsb' 0 8)
  | .nopF low => !miscSubOpcodes.contains (low.extractLsb' 0 8)
  | .cls | .ret | .jp _ | .call _ | .seImm _ _ | .sneImm _ _ | .seReg _ _ | .sneReg _ _ | .ldImm _ _
  | .addImm _ _ | .ldReg _ _ | .orReg _ _ | .andReg _ _ | .xorReg _ _ | .addReg _ _ | .subReg _ _
  | .shrReg _ _ | .subnReg _ _ | .shlReg _ _ | .ldI _ | .jpV0 _ | .rnd _ _ | .drw _ _ _ | .skp _ | .sknp _
  | .ldVxDt _ | .ldDtVx _ | .ldStVx _ | .ldVxK _ | .addI _ | .ldF _ | .ldB _ | .stRegs _ | .ldRegs _ => true

end Sys2Proof
end

