-- ==== Sys2Proof/Decode.lean ====
section
/-! DEFINITION. The decoder, a pure total function of the 16-bit opcode (30_encoding.md R71, R74 to R78), the encoder
written from the same table, and the opcode map of R74 as data. -/

namespace Sys2Proof

/-- The six fields of an opcode, all produced for every opcode (R71). -/
structure Fields where
  cls : BitVec 4
  x   : BitVec 4
  y   : BitVec 4
  n   : BitVec 4
  kk  : BitVec 8
  nnn : BitVec 12
  deriving DecidableEq, Repr

/-- The bit positions of R71's table. -/
def fields (op : Word) : Fields where
  cls := op.extractLsb' 12 4
  x   := op.extractLsb' 8 4
  y   := op.extractLsb' 4 4
  n   := op.extractLsb' 0 4
  kk  := op.extractLsb' 0 8
  nnn := op.extractLsb' 0 12

/-- A 4-bit field read as a number 0 to 15. -/
def nibbleVal (b : BitVec 4) : Fin 16 := ⟨b.toNat, b.isLt⟩

/-- A number 0 to 15 as the 4-bit field that holds it. -/
def nibbleBits (k : Fin 16) : BitVec 4 := BitVec.ofNat 4 k.val

/-- Class 0: both patterns are literal in all 16 bits (R75). -/
def decodeClass0 (f : Fields) : Instr :=
  if f.nnn = 0x0E0#12 then .cls else if f.nnn = 0x0EE#12 then .ret else .nop0 f.nnn

/-- Class 5: `n = 0` or a no-op (R75). -/
def decodeClass5 (f : Fields) : Instr :=
  if f.n = 0x0#4 then .seReg (nibbleVal f.x) (nibbleVal f.y) else .nop5 f.nnn

/-- Class 8: dispatch on the low nibble (R74 rows 11 to 19). -/
def decodeClass8 (f : Fields) : Instr :=
  match f.n with
  | 0x0#4 => .ldReg (nibbleVal f.x) (nibbleVal f.y)
  | 0x1#4 => .orReg (nibbleVal f.x) (nibbleVal f.y)
  | 0x2#4 => .andReg (nibbleVal f.x) (nibbleVal f.y)
  | 0x3#4 => .xorReg (nibbleVal f.x) (nibbleVal f.y)
  | 0x4#4 => .addReg (nibbleVal f.x) (nibbleVal f.y)
  | 0x5#4 => .subReg (nibbleVal f.x) (nibbleVal f.y)
  | 0x6#4 => .shrReg (nibbleVal f.x) (nibbleVal f.y)
  | 0x7#4 => .subnReg (nibbleVal f.x) (nibbleVal f.y)
  | 0xE#4 => .shlReg (nibbleVal f.x) (nibbleVal f.y)
  | _     => .nop8 f.nnn

/-- Class 9: `n = 0` or a no-op (R75). -/
def decodeClass9 (f : Fields) : Instr :=
  if f.n = 0x0#4 then .sneReg (nibbleVal f.x) (nibbleVal f.y) else .nop9 f.nnn

/-- Class E: dispatch on the low byte (R74 rows 24 and 25). -/
def decodeClassE (f : Fields) : Instr :=
  if f.kk = 0x9E#8 then .skp (nibbleVal f.x) else if f.kk = 0xA1#8 then .sknp (nibbleVal f.x) else .nopE f.nnn

/-- Class F: dispatch on the low byte (R74 rows 26 to 34). -/
def decodeClassF (f : Fields) : Instr :=
  match f.kk with
  | 0x07#8 => .ldVxDt (nibbleVal f.x)
  | 0x0A#8 => .ldVxK (nibbleVal f.x)
  | 0x15#8 => .ldDtVx (nibbleVal f.x)
  | 0x18#8 => .ldStVx (nibbleVal f.x)
  | 0x1E#8 => .addI (nibbleVal f.x)
  | 0x29#8 => .ldF (nibbleVal f.x)
  | 0x33#8 => .ldB (nibbleVal f.x)
  | 0x55#8 => .stRegs (nibbleVal f.x)
  | 0x65#8 => .ldRegs (nibbleVal f.x)
  | _      => .nopF f.nnn

/-- Dispatch on the class nibble, then on the literal sub-opcode in classes 0, 5, 8, 9, E and F (R74). -/
def decodeFields (f : Fields) : Instr :=
  match f.cls with
  | 0x0#4 => decodeClass0 f
  | 0x1#4 => .jp f.nnn
  | 0x2#4 => .call f.nnn
  | 0x3#4 => .seImm (nibbleVal f.x) f.kk
  | 0x4#4 => .sneImm (nibbleVal f.x) f.kk
  | 0x5#4 => decodeClass5 f
  | 0x6#4 => .ldImm (nibbleVal f.x) f.kk
  | 0x7#4 => .addImm (nibbleVal f.x) f.kk
  | 0x8#4 => decodeClass8 f
  | 0x9#4 => decodeClass9 f
  | 0xA#4 => .ldI f.nnn
  | 0xB#4 => .jpV0 f.nnn
  | 0xC#4 => .rnd (nibbleVal f.x) f.kk
  | 0xD#4 => .drw (nibbleVal f.x) (nibbleVal f.y) (nibbleVal f.n)
  | 0xE#4 => decodeClassE f
  | _     => decodeClassF f

/-- The instruction an opcode selects: "every 16-bit value decodes successfully" (R71). -/
def decodeWord (op : Word) : Instr := decodeFields (fields op)

/-- Why a sequence of bytes yields no instruction. Every two bytes decode (R76), so the only reason is that there are
fewer than two. -/
inductive DecodeError where
  /-- fewer than two bytes are left; safe: nothing is read from a missing byte -/
  | truncated
  deriving DecidableEq, Repr

/-- The byte at the lower address gives bits 15 to 8 (20_memory.md R54). -/
def combine (hi lo : Byte) : Word := hi ++ lo

/-- The instruction at the head of a byte sequence, and the bytes after it (R70: always two bytes). -/
def decode : List Byte → Except DecodeError (Instr × List Byte)
  | hi :: lo :: rest => .ok (decodeWord (combine hi lo), rest)
  | [_]              => .error .truncated
  | []               => .error .truncated

/-- The high byte of an opcode, stored first (R70). -/
def highByte (op : Word) : Byte := op.extractLsb' 8 8

/-- The low byte of an opcode, stored second (R70). -/
def lowByte (op : Word) : Byte := op.extractLsb' 0 8

/-- An opcode as the hardware stores it: most significant byte at the lower address (R70, 20_memory.md R54). -/
def opcodeBytes (op : Word) : List Byte := [highByte op, lowByte op]

/-- The table's number `w` for a row of `nbits` bits, as the 16-bit opcode: bits above `nbits` are 0 (log 22). -/
def tableWord (nbits w : Nat) : Word := BitVec.ofNat 16 (w % 2 ^ nbits)

/-- The instruction the decoder reads from an opcode-table word laid out as the hardware stores it. -/
def decodeTableWord (nbits w : Nat) : Option Instr :=
  match decode (opcodeBytes (tableWord nbits w)) with
  | .ok (i, _) => some i
  | .error _   => none

/-! ### The encoder: the formats of R72 -/

/-- Format `NNN`, and the no-op rows. -/
def encNNN (cls : BitVec 4) (nnn : BitVec 12) : Word := cls ++ nnn

/-- Format `XKK`. -/
def encXKK (cls : BitVec 4) (x : Reg) (kk : Byte) : Word := (cls ++ nibbleBits x : BitVec 8) ++ kk

/-- Formats `XY` and `XYN`. -/
def encXYN (cls : BitVec 4) (x y : Reg) (n : BitVec 4) : Word :=
  (cls ++ nibbleBits x : BitVec 8) ++ (nibbleBits y ++ n : BitVec 8)

/-- The opcode of an instruction, row by row from R74's table. -/
def encode : Instr → Word
  | .cls         => 0x00E0#16
  | .ret         => 0x00EE#16
  | .jp nnn      => encNNN 0x1 nnn
  | .call nnn    => encNNN 0x2 nnn
  | .seImm x kk  => encXKK 0x3 x kk
  | .sneImm x kk => encXKK 0x4 x kk
  | .seReg x y   => encXYN 0x5 x y 0x0
  | .sneReg x y  => encXYN 0x9 x y 0x0
  | .ldImm x kk  => encXKK 0x6 x kk
  | .addImm x kk => encXKK 0x7 x kk
  | .ldReg x y   => encXYN 0x8 x y 0x0
  | .orReg x y   => encXYN 0x8 x y 0x1
  | .andReg x y  => encXYN 0x8 x y 0x2
  | .xorReg x y  => encXYN 0x8 x y 0x3
  | .addReg x y  => encXYN 0x8 x y 0x4
  | .subReg x y  => encXYN 0x8 x y 0x5
  | .shrReg x y  => encXYN 0x8 x y 0x6
  | .subnReg x y => encXYN 0x8 x y 0x7
  | .shlReg x y  => encXYN 0x8 x y 0xE
  | .ldI nnn     => encNNN 0xA nnn
  | .jpV0 nnn    => encNNN 0xB nnn
  | .rnd x kk    => encXKK 0xC x kk
  | .drw x y n   => encXYN 0xD x y (nibbleBits n)
  | .skp x       => encXKK 0xE x 0x9E
  | .sknp x      => encXKK 0xE x 0xA1
  | .ldVxDt x    => encXKK 0xF x 0x07
  | .ldDtVx x    => encXKK 0xF x 0x15
  | .ldStVx x    => encXKK 0xF x 0x18
  | .ldVxK x     => encXKK 0xF x 0x0A
  | .addI x      => encXKK 0xF x 0x1E
  | .ldF x       => encXKK 0xF x 0x29
  | .ldB x       => encXKK 0xF x 0x33
  | .stRegs x    => encXKK 0xF x 0x55
  | .ldRegs x    => encXKK 0xF x 0x65
  | .nop0 low    => encNNN 0x0 low
  | .nop5 low    => encNNN 0x5 low
  | .nop8 low    => encNNN 0x8 low
  | .nop9 low    => encNNN 0x9 low
  | .nopE low    => encNNN 0xE low
  | .nopF low    => encNNN 0xF low

/-! ### The opcode map of R74 as data -/

/-- The number of an instruction's row in R74's table, 1 to 34, and 35 for every no-op. -/
def Instr.row : Instr → Nat
  | .cls        => 1
  | .ret        => 2
  | .jp _       => 3
  | .call _     => 4
  | .seImm _ _  => 5
  | .sneImm _ _ => 6
  | .seReg _ _  => 7
  | .sneReg _ _ => 8
  | .ldImm _ _  => 9
  | .addImm _ _ => 10
  | .ldReg _ _  => 11
  | .orReg _ _  => 12
  | .andReg _ _ => 13
  | .xorReg _ _ => 14
  | .addReg _ _ => 15
  | .subReg _ _ => 16
  | .shrReg _ _ => 17
  | .subnReg _ _ => 18
  | .shlReg _ _ => 19
  | .ldI _      => 20
  | .jpV0 _     => 21
  | .rnd _ _    => 22
  | .drw _ _ _  => 23
  | .skp _      => 24
  | .sknp _     => 25
  | .ldVxDt _   => 26
  | .ldDtVx _   => 27
  | .ldStVx _   => 28
  | .ldVxK _    => 29
  | .addI _     => 30
  | .ldF _      => 31
  | .ldB _      => 32
  | .stRegs _   => 33
  | .ldRegs _   => 34
  | .nop0 _ | .nop5 _ | .nop8 _ | .nop9 _ | .nopE _ | .nopF _ => 35

/-- One row of R74's table: an opcode `op` selects it when `op &&& mask = pattern`. -/
structure Row where
  number  : Nat
  mask    : Word
  pattern : Word
  deriving DecidableEq, Repr

/-- The test of R74. -/
def Row.selects (r : Row) (op : Word) : Bool := op &&& r.mask == r.pattern

/-- R74's 34 rows, with the mask and match columns as the table gives them. -/
def opcodeMap : List Row :=
  [⟨1, 0xFFFF, 0x00E0⟩, ⟨2, 0xFFFF, 0x00EE⟩, ⟨3, 0xF000, 0x1000⟩, ⟨4, 0xF000, 0x2000⟩, ⟨5, 0xF000, 0x3000⟩,
   ⟨6, 0xF000, 0x4000⟩, ⟨7, 0xF00F, 0x5000⟩, ⟨8, 0xF00F, 0x9000⟩, ⟨9, 0xF000, 0x6000⟩, ⟨10, 0xF000, 0x7000⟩]
  ++ [⟨11, 0xF00F, 0x8000⟩, ⟨12, 0xF00F, 0x8001⟩, ⟨13, 0xF00F, 0x8002⟩, ⟨14, 0xF00F, 0x8003⟩, ⟨15, 0xF00F, 0x8004⟩,
   ⟨16, 0xF00F, 0x8005⟩, ⟨17, 0xF00F, 0x8006⟩, ⟨18, 0xF00F, 0x8007⟩, ⟨19, 0xF00F, 0x800E⟩]
  ++ [⟨20, 0xF000, 0xA000⟩, ⟨21, 0xF000, 0xB000⟩, ⟨22, 0xF000, 0xC000⟩, ⟨23, 0xF000, 0xD000⟩, ⟨24, 0xF0FF, 0xE09E⟩,
   ⟨25, 0xF0FF, 0xE0A1⟩, ⟨26, 0xF0FF, 0xF007⟩, ⟨27, 0xF0FF, 0xF015⟩, ⟨28, 0xF0FF, 0xF018⟩, ⟨29, 0xF0FF, 0xF00A⟩]
  ++ [⟨30, 0xF0FF, 0xF01E⟩, ⟨31, 0xF0FF, 0xF029⟩, ⟨32, 0xF0FF, 0xF033⟩, ⟨33, 0xF0FF, 0xF055⟩, ⟨34, 0xF0FF, 0xF065⟩]

end Sys2Proof
end

