-- ==== Sys2Proof/Config.lean ====
section
/-! DEFINITION. What is fixed for the machine: the fixed parameters of 00_scope.md R4, the record of quirks and open
parameters of R5 and R6, the events of R7, and the free values of 41_alu.md R132 and 60_exceptions.md R213. -/

namespace Sys2Proof

/-- Bytes of memory, addresses 0 to 4095 (R4). -/
abbrev memSize : Nat := 4096

/-- The largest address that exists (20_memory.md R50). -/
abbrev lastAddr : Nat := 4095

/-- Maximum number of return addresses on the call stack (R4). -/
abbrev stackDepth : Nat := 16

/-- Display columns (R4). -/
abbrev dispW : Nat := 64

/-- Display rows (R4). -/
abbrev dispH : Nat := 32

/-- First address of the font region (R4). -/
abbrev fontBase : Nat := 0x050

/-- Bytes of the font region: 16 glyphs of 5 bytes, 0x050 to 0x09F (R4). -/
abbrev fontSize : Nat := 80

/-- Bytes per glyph (R4). -/
abbrev glyphBytes : Nat := 5

/-- Load address of a ROM and reset value of the program counter (R4). -/
abbrev progBase : Nat := 0x200

/-- Maximum ROM size in bytes (R4). -/
abbrev romMax : Nat := 3584

/-- `Q_SHIFT_SRC`: the source register of 8xy6 and 8xyE (R5). -/
inductive ShiftSrc where
  | vy
  | vx
  deriving DecidableEq, Repr

/-- `Q_JUMP_OFFSET`: the offset register of Bnnn (R5). -/
inductive JumpOffset where
  | v0
  | vx
  deriving DecidableEq, Repr

/-- `Q_MEM_INC`: whether Fx55 and Fx65 add x+1 to `I` after the transfer (R5). -/
inductive MemInc where
  | inc
  | noinc
  deriving DecidableEq, Repr

/-- `Q_ADDI_VF`: whether Fx1E writes VF as an overflow flag (R5). -/
inductive AddiVf where
  | off
  | on
  deriving DecidableEq, Repr

/-- The inputs that are constant for a run: the four quirks `CFG` (R5) and the parameters `FONT` and
`ADDI_OVF_LIMIT` (R6). All combinations are legal (90_conflicts.md C5). -/
structure Config where
  qShiftSrc    : ShiftSrc
  qJumpOffset  : JumpOffset
  qMemInc      : MemInc
  qAddiVf      : AddiVf
  font         : Vector Byte fontSize
  addiOvfLimit : Nat
  deriving DecidableEq, Repr

/-- The n-th random byte of Cxkk: "a free draw, any value from 0 to 255, chosen anew for each executed Cxkk and under
no law" (41_alu.md R132). No body: nothing can be proved of its values (log 3). -/
opaque Config.freeRnd : Nat → Byte

/-- The six events, "the complete list" (00_scope.md R7). A key index is 4 bits wide, so no event names a key above
15 (10_state.md R34). -/
inductive Event where
  | reset
  | load (rom : List Byte)
  | stepTick (rnd : Byte)
  | timerTick
  | keyPress (k : Key)
  | keyRelease (k : Key)
  deriving DecidableEq, Repr, Inhabited

/-- The n-th event of the free schedule: "a model takes the interleaving of `StepTick` and `TimerTick` as free (any order,
any ratio, including many ticks between two steps and none)" (60_exceptions.md R213). No body: nothing can be proved
of which event comes, nor that any comes again; a claim that needs it takes a fairness premise (log 23). -/
opaque Config.freeEvent : Nat → Event

end Sys2Proof
end

