-- ==== Sys2Proof/Machine/Defaults.lean ====
section
/-! DEFINITION. The default of every configuration input, as 00_scope.md R5, R6 and 20_memory.md R51 give it. The
spec takes three of the quirk defaults and the font bytes from general knowledge (log 2). -/

namespace Sys2Proof.Machine

/-- The rows of the default glyphs 0 to F, top row first (20_memory.md R51; PRESUMED, unsafe: log 2). -/
def defaultGlyphRows : List Byte :=
  [0xF0, 0x90, 0x90, 0x90, 0xF0] ++ [0x20, 0x60, 0x20, 0x20, 0x70]
  ++ [0xF0, 0x10, 0xF0, 0x80, 0xF0] ++ [0xF0, 0x10, 0xF0, 0x10, 0xF0]
  ++ [0x90, 0x90, 0xF0, 0x10, 0x10] ++ [0xF0, 0x80, 0xF0, 0x10, 0xF0]
  ++ [0xF0, 0x80, 0xF0, 0x90, 0xF0] ++ [0xF0, 0x10, 0x20, 0x40, 0x40]
  ++ [0xF0, 0x90, 0xF0, 0x90, 0xF0] ++ [0xF0, 0x90, 0xF0, 0x10, 0xF0]
  ++ [0xF0, 0x90, 0xF0, 0x90, 0x90] ++ [0xE0, 0x90, 0xE0, 0x90, 0xE0]
  ++ [0xF0, 0x80, 0x80, 0x80, 0xF0] ++ [0xE0, 0x90, 0x90, 0x90, 0xE0]
  ++ [0xF0, 0x80, 0xF0, 0x80, 0xF0] ++ [0xF0, 0x80, 0xF0, 0x80, 0x80]

/-- The default value of `FONT`: 16 glyphs of 5 bytes (20_memory.md R51; log 2). -/
def defaultFont : Vector Byte fontSize := ⟨defaultGlyphRows.toArray, rfl⟩

/-- The default configuration (R5, R6). `qShiftSrc := .vy` is settled by the source; `qJumpOffset`, `qMemInc`,
`qAddiVf` and the font are PRESUMED by the spec (log 2). -/
def defaultConfig : Config where
  qShiftSrc    := .vy
  qJumpOffset  := .v0
  qMemInc      := .inc
  qAddiVf      := .off
  font         := defaultFont
  addiOvfLimit := 0xFFFF

end Sys2Proof.Machine
end

