-- ==== Sys2Proof/Machine/State.lean ====
section
/-! DEFINITION. The state of the core (10_state.md R20 to R29), the host's schedule (60_exceptions.md R213), the reasons
a step can stop, and the state after reset (10_state.md R33). Plain data throughout. -/

namespace Sys2Proof.Machine

/-- The fault latch `FAULT` (10_state.md R29, 60_exceptions.md R200). -/
inductive FaultLatch where
  | none
  | stackOverflow
  | stackUnderflow
  | memoryOob
  deriving DecidableEq, Repr

/-- What the host issues once no event is pending, for ever: plain data for a schedule with no end (60_exceptions.md
R213; log 23). -/
inductive Schedule where
  /-- `StepTick` again and again, each with the model's own random byte -/
  | steps
  /-- the events `first :: rest`, over and over -/
  | cycle (first : Event) (rest : List Event)
  /-- the free schedule from its `n`-th event on: any order, any ratio, no fairness -/
  | free (n : Nat)
  deriving DecidableEq, Repr

/-- Memory as (address, byte) pairs in one canonical form (Memory.wf): addresses strictly rising and below 4096, no
entry equal to what its address reads as when unlisted (log 14). -/
abbrev Memory := List Host.Cell

/-- The display buffer: bit `j` is `DISP[j]`, the cell at column `j mod 64` and row `j div 64` (10_state.md R26,
log 7). -/
abbrev Display := BitVec 2048

/-- Everything the spec gives the machine, and the inputs it runs under. -/
structure State where
  /-- `V[0]` to `V[15]` (R20) -/
  v       : Vector Byte 16
  /-- `I` (R22) -/
  i       : Word
  /-- `PC` (R23): between steps, the address of the next instruction -/
  pc      : Word
  /-- `SP` (R24): the number of live stack entries, 0 to 16 -/
  sp      : Fin 17
  /-- `STK[0]` to `STK[15]` (R24); the live ones are those below `sp` -/
  stk     : Vector Word 16
  /-- `MEM` (R25) -/
  mem     : Memory
  /-- `DISP` (R26) -/
  disp    : Display
  /-- `DT` (R27) -/
  dt      : Byte
  /-- `ST` (R27) -/
  st      : Byte
  /-- `KEY[0]` to `KEY[15]` (R28) -/
  key     : Vector Bool 16
  /-- `FAULT` (R29) -/
  fault   : FaultLatch
  /-- the inputs that no event changes (R30, log 1) -/
  cfg     : Config
  /-- the model's own: `RND`, the argument of the next `StepTick` (00_scope.md R6, R7; log 3) -/
  rnd     : Byte
  /-- the model's own: how many free bytes have been drawn (log 3) -/
  draws   : Nat
  /-- the model's own: the events the host issues next, in order (log 4) -/
  pending : List Event
  /-- the model's own: the schedule that follows when none is listed (log 23) -/
  later   : Schedule
  deriving DecidableEq, Repr

/-- Reasons to stop with a fault. None: each of the machine's fatal conditions is a transition that sets `FAULT`, after
which the machine is halted but its timers and keys go on (60_exceptions.md R202 to R205; log 5). Nobody raises one;
safe. -/
inductive Fault where
  deriving DecidableEq, Repr

/-- Reasons to refuse a step. -/
inductive Refusal where
  /-- raised by an arm of exec for an instruction with no meaning yet: no arm of this model does; safe -/
  | notModelled (mnemonic : String)
  /-- raised by the event `Load(rom)` when `rom` is longer than 3584 bytes: "a `Load` with `L > 3584` is refused whole
  ... In a model, `Load` is simply not defined for `L > 3584`" (70_reset_and_hazards.md R242); safe -/
  | romTooLong
  deriving DecidableEq, Repr

/-- What a step answers. -/
abbrev Result := Host.Outcome State Fault Refusal

/-- The state after `Reset` under a configuration (R33): memory lists nothing, since an unlisted address reads as its
reset contents. -/
def State.resetWith (cfg : Config) : State where
  v       := Vector.replicate 16 0x00
  i       := 0x0000
  pc      := 0x0200
  sp      := 0
  stk     := Vector.replicate 16 0x0000
  mem     := []
  disp    := 0
  dt      := 0x00
  st      := 0x00
  key     := Vector.replicate 16 false
  fault   := .none
  cfg     := cfg
  rnd     := Config.freeRnd 0
  draws   := 1
  pending := []
  later   := .steps

/-- The machine right after reset, under the default configuration (R33, R240; log 2). -/
def State.reset : State := State.resetWith defaultConfig

end Sys2Proof.Machine
end

