-- ==== Sys2Proof/Machine/Ops.lean ====
section
/-! DEFINITION. The named operations every meaning is written in: memory, registers, the program counter, the call
stack, taking a fatal condition, the display cell. -/

namespace Sys2Proof.Machine

/-! ### Memory -/

/-- What an address reads as when memory does not list it: the reset contents, the font at 0x050 to 0x09F and 0x00
elsewhere (10_state.md R25, 20_memory.md R51). -/
def Memory.initial (font : Vector Byte fontSize) (a : Nat) : Byte :=
  if h : fontBase ≤ a ∧ a < fontBase + fontSize then font[a - fontBase] else 0x00

/-- The byte at an address. -/
def Memory.read (font : Vector Byte fontSize) : Memory → Nat → Byte
  | [], a => Memory.initial font a
  | (b, w) :: rest, a => if a = b then w else Memory.read font rest a

/-- Put a cell before the first one of a higher address. -/
def Memory.insert (a : Nat) (w : Byte) : Memory → Memory
  | [] => [(a, w)]
  | (b, u) :: rest => if a < b then (a, w) :: (b, u) :: rest else (b, u) :: Memory.insert a w rest

/-- Store a byte, keeping the canonical form: the cell of the address goes, and comes back with the new byte unless
that is what the address reads as anyway. -/
def Memory.write (font : Vector Byte fontSize) (m : Memory) (a : Nat) (w : Byte) : Memory :=
  let others := m.filter (fun c => c.1 != a)
  if w = Memory.initial font a then others else Memory.insert a w others

/-- The canonical form: addresses strictly rising, each one existing (20_memory.md R50), no entry equal to what its
address reads as when unlisted. -/
abbrev Memory.wf (font : Vector Byte fontSize) (m : Memory) : Prop :=
  m.Pairwise (fun c d => c.1 < d.1) ∧ ∀ c ∈ m, c.1 < memSize ∧ c.2 ≠ Memory.initial font c.1

/-- `MemRead(a, 1)` for an address that exists (R53). -/
def State.readByte (s : State) (a : Nat) : Byte := s.mem.read s.cfg.font a

/-- `MemWrite(a, 1, w)` for an address that exists (R53). -/
def State.writeByte (s : State) (a : Nat) (w : Byte) : State := { s with mem := s.mem.write s.cfg.font a w }

/-- Store bytes at ascending addresses from `a`, one access each (R54, R56). -/
def State.writeBytes (s : State) (a : Nat) : List Byte → State
  | [] => s
  | w :: ws => State.writeBytes (s.writeByte a w) (a + 1) ws

/-- The `n` bytes at ascending addresses from `a`. -/
def State.readBytes (s : State) (a : Nat) : Nat → List Byte
  | 0 => []
  | n + 1 => s.readByte a :: State.readBytes s (a + 1) n

/-- Does one of the `n` addresses from `a` lie beyond 4095? Exact natural numbers, no wrap (R53); with `n = 0` there is
no access and none does (43_display.md R161). -/
def spanOob (a n : Nat) : Bool := decide (0 < n ∧ a + n - 1 > lastAddr)

/-! ### General registers -/

/-- `V[x] <- w` (10_state.md R20: no register is hardwired). -/
def State.setReg (s : State) (x : Reg) (w : Byte) : State := { s with v := s.v.set x.val w x.isLt }

/-- `VF <- 1 if b else 0` (10_state.md R21). -/
def State.setVF (s : State) (b : Bool) : State := s.setReg Reg.vf (if b then 1 else 0)

/-- The first `n` registers, loaded in order from ascending addresses (42_index_memory.md R145's loop). -/
def State.loadRegs (s : State) (a : Nat) : Nat → Vector Byte 16
  | 0 => s.v
  | n + 1 => (State.loadRegs s a n).setIfInBounds n (s.readByte (a + n))

/-- The values of `V[0]` to `V[n-1]` (42_index_memory.md R144's loop). -/
def State.firstRegs (s : State) (n : Nat) : List Byte := s.v.toList.take n

/-- `I <- w`. -/
def State.setI (s : State) (w : Word) : State := { s with i := w }

/-! ### Program counter and call stack -/

/-- `PC <- w`. -/
def State.setPc (s : State) (w : Word) : State := { s with pc := w }

/-- The fetch's `PC <- PC + 2`, "advance before dispatch" (40_flow.md R100). -/
def State.advance (s : State) : State := s.setPc (s.pc + 2)

/-- A skip: a further 2 on the advanced counter (40_flow.md section 3). -/
def State.skipIf (s : State) (c : Bool) : State := if c then s.setPc (s.pc + 2) else s

/-- `STK[SP] <- w; SP <- SP + 1` (10_state.md R24). 2nnn pushes only when `SP < 16` (40_flow.md R103); the bound on
`SP` is there for the type. -/
def State.push (s : State) (w : Word) : State :=
  { s with stk := s.stk.setIfInBounds s.sp.val w, sp := ⟨min (s.sp.val + 1) 16, by omega⟩ }

/-- `SP <- SP - 1; PC <- STK[SP]`; the slot keeps its value (40_flow.md R101). 00EE pops only when `SP > 0`. -/
def State.popPc (s : State) : State :=
  { s with sp := ⟨s.sp.val - 1, by omega⟩, pc := s.stk[s.sp.val - 1]'(by omega) }

/-! ### Taking a fatal condition -/

/-- Entry into a fatal condition (60_exceptions.md R202, R203): given the state at the START of the step, only `FAULT`
changes; the counter is not advanced and nothing is saved. The one return, `Reset` or `Load` (R205), is in
Machine/Events.lean. -/
def State.raise (s : State) (f : FaultLatch) : Result := .next { s with fault := f }

/-! ### The random input -/

/-- `RND` has been used: the next Cxkk is given a fresh free byte (41_alu.md R132, log 3). -/
def State.refreshRnd (s : State) : State := { s with rnd := Config.freeRnd s.draws, draws := s.draws + 1 }

/-! ### The display -/

/-- The index of the cell at a column and a row (10_state.md R26). -/
def cellIndex (col row : Nat) : Nat := dispW * row + col

/-- `DISP[j]` (R26). -/
def Display.cell (d : Display) (j : Nat) : Bool := d.getLsbD j

/-- `DISP[j] <- DISP[j] ^ 1`, every other cell as it was. -/
def Display.flip (d : Display) (j : Nat) : Display := d ^^^ (1#2048 <<< j)

end Sys2Proof.Machine
end

