-- ==== Sys2Proof/Machine/Operands.lean ====
section
/-! DEFINITION. How an instruction finds its operands: the quirk-selected registers, the key selector, the glyph
address, the decimal digits, the sprite's anchor. -/

namespace Sys2Proof.Machine

/-- The shift source of 8xy6 and 8xyE (41_alu.md R129, R131). -/
def State.shiftSource (s : State) (x y : Reg) : Byte :=
  match s.cfg.qShiftSrc with
  | .vy => s.v[y]
  | .vx => s.v[x]

/-- The top nibble of `nnn` as a register number: `x = nnn[11:8]` (40_flow.md R104). -/
def offsetReg (nnn : BitVec 12) : Reg := ⟨(nnn.extractLsb' 8 4).toNat, (nnn.extractLsb' 8 4).isLt⟩

/-- The offset of Bnnn (40_flow.md R104). -/
def State.jumpOffset (s : State) (nnn : BitVec 12) : Byte :=
  match s.cfg.qJumpOffset with
  | .v0 => s.v[0]
  | .vx => s.v[offsetReg nnn]

/-- The key a register selects: its low nibble (44_keypad_timers.md R176, log 10). -/
def keySelect (w : Byte) : Key := ⟨w.toNat % 16, Nat.mod_lt _ (by decide)⟩

/-- The pressed key of least index, if any (44_keypad_timers.md R172). -/
def State.lowestKey (s : State) : Option Key := (List.finRange 16).find? (fun k => s.key[k])

/-- The address of a glyph: `0x0050 + 5 * V[x]`, the whole byte, no masking (42_index_memory.md R142). -/
def glyphAddr (w : Byte) : Word := BitVec.ofNat 16 (fontBase + glyphBytes * w.toNat)

/-- Hundreds, tens, ones, each a whole byte (42_index_memory.md R143). -/
def bcdDigits (w : Byte) : List Byte :=
  [BitVec.ofNat 8 (w.toNat / 100), BitVec.ofNat 8 (w.toNat / 10 % 10), BitVec.ofNat 8 (w.toNat % 10)]

/-- `I` after Fx55 and Fx65 with `count` bytes moved (42_index_memory.md R144, R145). -/
def State.indexAfter (s : State) (count : Nat) : Word :=
  match s.cfg.qMemInc with
  | .inc   => BitVec.ofNat 16 (s.i.toNat + count)
  | .noinc => s.i

/-- The anchor column of a sprite, `V[x] mod 64` (43_display.md R161). -/
def anchorCol (w : Byte) : Nat := w.toNat % dispW

/-- The anchor row of a sprite, `V[y] mod 32` (43_display.md R161). -/
def anchorRow (w : Byte) : Nat := w.toNat % dispH

end Sys2Proof.Machine
end

