-- ==== Sys2Proof/Machine/Flags.lean ====
section
/-! DEFINITION. Every flag the machine computes (10_state.md R21 lists them all), each the value VF receives: true for
1, false for 0. -/

namespace Sys2Proof.Machine

/-- 8xy4: carry out of bit 7, the exact sum exceeds 255 (41_alu.md R127). -/
def carryFlag (a b : Byte) : Bool := decide (a.toNat + b.toNat > 255)

/-- 8xy5 with (a, b), 8xy7 with (b, a): the minuend is STRICTLY greater (41_alu.md R128, R130). -/
def greaterFlag (a b : Byte) : Bool := decide (a.toNat > b.toNat)

/-- 8xy6: bit 0 of the shift source (41_alu.md R129). -/
def shrFlag (w : Byte) : Bool := w.getLsbD 0

/-- 8xyE: bit 7 of the shift source (41_alu.md R131). -/
def shlFlag (w : Byte) : Bool := w.getLsbD 7

/-- Fx1E under `Q_ADDI_VF = ON`: the exact sum exceeds `ADDI_OVF_LIMIT` (42_index_memory.md R141). -/
def indexOverflowFlag (cfg : Config) (i : Word) (w : Byte) : Bool := decide (i.toNat + w.toNat > cfg.addiOvfLimit)

/-- Dxyn: a set cell is about to be cleared (43_display.md R161). -/
def collisionFlag (d : Display) (j : Nat) : Bool := d.cell j

end Sys2Proof.Machine
end

