-- ==== Sys2Proof/Machine/Alu.lean ====
section
/-! DEFINITION. Register load, arithmetic, logic, shift and random: 6xkk, 7xkk, 8xy0 to 8xy7, 8xyE, Cxkk (41_alu.md).
Every operand is read from the state at the start of the step; where VF and Vx are both written the writes stand in
the order of R120, so that the later one remains when x is 0xF. -/

namespace Sys2Proof.Machine

/-- Result first, flag second: 8xy4's order (R120). -/
def resultThenFlag (s : State) (x : Reg) (result : Byte) (flag : Bool) : Result :=
  .next ((s.advance.setReg x result).setVF flag)

/-- Flag first, result second: the order of 8xy5, 8xy6, 8xy7, 8xyE (R120). -/
def flagThenResult (s : State) (x : Reg) (result : Byte) (flag : Bool) : Result :=
  .next ((s.advance.setVF flag).setReg x result)

/-- 6xkk (R121). -/
def execLdImm (x : Reg) (kk : Byte) (s : State) : Result := .next (s.advance.setReg x kk)

/-- 7xkk: mod 256, no flag (R122). -/
def execAddImm (x : Reg) (kk : Byte) (s : State) : Result := .next (s.advance.setReg x (s.v[x] + kk))

/-- 8xy0 (R123). -/
def execLdReg (x y : Reg) (s : State) : Result := .next (s.advance.setReg x s.v[y])

/-- 8xy1: no flag (R124). -/
def execOrReg (x y : Reg) (s : State) : Result := .next (s.advance.setReg x (s.v[x] ||| s.v[y]))

/-- 8xy2: no flag (R125). -/
def execAndReg (x y : Reg) (s : State) : Result := .next (s.advance.setReg x (s.v[x] &&& s.v[y]))

/-- 8xy3: no flag (R126). -/
def execXorReg (x y : Reg) (s : State) : Result := .next (s.advance.setReg x (s.v[x] ^^^ s.v[y]))

/-- 8xy4 (R127). -/
def execAddReg (x y : Reg) (s : State) : Result :=
  resultThenFlag s x (s.v[x] + s.v[y]) (carryFlag s.v[x] s.v[y])

/-- 8xy5 (R128). -/
def execSubReg (x y : Reg) (s : State) : Result :=
  flagThenResult s x (s.v[x] - s.v[y]) (greaterFlag s.v[x] s.v[y])

/-- 8xy6: logical, by one (R129). -/
def execShrReg (x y : Reg) (s : State) : Result :=
  flagThenResult s x (s.shiftSource x y >>> 1) (shrFlag (s.shiftSource x y))

/-- 8xy7 (R130). -/
def execSubnReg (x y : Reg) (s : State) : Result :=
  flagThenResult s x (s.v[y] - s.v[x]) (greaterFlag s.v[y] s.v[x])

/-- 8xyE: by one, mod 256 (R131). -/
def execShlReg (x y : Reg) (s : State) : Result :=
  flagThenResult s x (s.shiftSource x y <<< 1) (shlFlag (s.shiftSource x y))

/-- Cxkk: the step's `RND`, masked (R132). -/
def execRnd (x : Reg) (kk : Byte) (s : State) : Result := .next (s.advance.setReg x (s.rnd &&& kk)).refreshRnd

end Sys2Proof.Machine
end

