-- ==== Sys2Proof/Machine/Flow.lean ====
section
/-! DEFINITION. Control transfer, skips and the no-op: 00EE, 1nnn, 2nnn, Bnnn, 3xkk, 4xkk, 5xy0, 9xy0 and every
unmatched opcode (40_flow.md). -/

namespace Sys2Proof.Machine

/-- 00EE: StackUnderflow on an empty stack (R101). -/
def execRet (s : State) : Result :=
  if s.sp.val = 0 then s.raise .stackUnderflow else .next s.advance.popPc

/-- 1nnn: the target is not checked (R102). -/
def execJp (nnn : BitVec 12) (s : State) : Result := .next (s.advance.setPc (nnn.setWidth 16))

/-- 2nnn: StackOverflow on a full stack; pushes the address of the next instruction (R103). -/
def execCall (nnn : BitVec 12) (s : State) : Result :=
  if s.sp.val = stackDepth then s.raise .stackOverflow
  else .next ((s.advance.push s.advance.pc).setPc (nnn.setWidth 16))

/-- Bnnn: no reduction to 12 bits (R104). -/
def execJpV0 (nnn : BitVec 12) (s : State) : Result :=
  .next (s.advance.setPc (nnn.setWidth 16 + (s.jumpOffset nnn).setWidth 16))

/-- 3xkk (R105). -/
def execSeImm (x : Reg) (kk : Byte) (s : State) : Result := .next (s.advance.skipIf (s.v[x] == kk))

/-- 4xkk (R106). -/
def execSneImm (x : Reg) (kk : Byte) (s : State) : Result := .next (s.advance.skipIf (s.v[x] != kk))

/-- 5xy0 (R107). -/
def execSeReg (x y : Reg) (s : State) : Result := .next (s.advance.skipIf (s.v[x] == s.v[y]))

/-- 9xy0 (R108). -/
def execSneReg (x y : Reg) (s : State) : Result := .next (s.advance.skipIf (s.v[x] != s.v[y]))

/-- The no-op: "after the fetch advance of rule R100 nothing else is done" (R109). -/
def noOperation (s : State) : Result := .next s.advance

/-- 0---: an unmatched opcode of class 0 (R76, R77, R109). -/
def execNop0 (_low : BitVec 12) (s : State) : Result := noOperation s

/-- 5---: an unmatched opcode of class 5 (R76, R109). -/
def execNop5 (_low : BitVec 12) (s : State) : Result := noOperation s

/-- 8---: an unmatched opcode of class 8 (R76, R109). -/
def execNop8 (_low : BitVec 12) (s : State) : Result := noOperation s

/-- 9---: an unmatched opcode of class 9 (R76, R109). -/
def execNop9 (_low : BitVec 12) (s : State) : Result := noOperation s

/-- E---: an unmatched opcode of class E (R76, R109). -/
def execNopE (_low : BitVec 12) (s : State) : Result := noOperation s

/-- F---: an unmatched opcode of class F (R76, R109). -/
def execNopF (_low : BitVec 12) (s : State) : Result := noOperation s

end Sys2Proof.Machine
end

