-- ==== Sys2Proof/Machine/IndexMemory.lean ====
section
/-! DEFINITION. Index register and memory transfer: Annn, Fx1E, Fx29, Fx33, Fx55, Fx65 (42_index_memory.md). Every
bounds check comes before the first write (60_exceptions.md R202). -/

namespace Sys2Proof.Machine

/-- An instruction that accesses the `n` bytes from `I`: MemoryOutOfBounds if one lies beyond 4095 (R201), else `t`. -/
def accessOrRaise (s : State) (n : Nat) (t : State) : Result :=
  if spanOob s.i.toNat n then s.raise .memoryOob else .next t

/-- Annn (R140). -/
def execLdI (nnn : BitVec 12) (s : State) : Result := .next (s.advance.setI (nnn.setWidth 16))

/-- Fx1E: the sum mod 65536, then VF under `Q_ADDI_VF = ON` (R141). -/
def execAddI (x : Reg) (s : State) : Result :=
  let t := s.advance.setI (s.i + s.v[x].setWidth 16)
  match s.cfg.qAddiVf with
  | .off => .next t
  | .on  => .next (t.setVF (indexOverflowFlag s.cfg s.i s.v[x]))

/-- Fx29 (R142). -/
def execLdF (x : Reg) (s : State) : Result := .next (s.advance.setI (glyphAddr s.v[x]))

/-- Fx33: hundreds, tens, ones at `I`, `I + 1`, `I + 2` (R143). -/
def execLdB (x : Reg) (s : State) : Result :=
  accessOrRaise s 3 (s.advance.writeBytes s.i.toNat (bcdDigits s.v[x]))

/-- Fx55: `V[0]` to `V[x]` to memory, then `I` (R144). -/
def execStRegs (x : Reg) (s : State) : Result :=
  accessOrRaise s (x.val + 1)
    ((s.advance.writeBytes s.i.toNat (s.firstRegs (x.val + 1))).setI (s.indexAfter (x.val + 1)))

/-- Fx65: `V[0]` to `V[x]` from memory, then `I` (R145). -/
def execLdRegs (x : Reg) (s : State) : Result :=
  accessOrRaise s (x.val + 1)
    ({ s.advance with v := s.loadRegs s.i.toNat (x.val + 1) }.setI (s.indexAfter (x.val + 1)))

end Sys2Proof.Machine
end

