-- ==== Sys2Proof/Machine/Graphics.lean ====
section
/-! DEFINITION. Display clear and sprite draw: 00E0, Dxyn (43_display.md). -/

namespace Sys2Proof.Machine

/-- One pixel of the blit at column `px`, row `py`: a set sprite bit inside the screen raises the collision on a set
cell, then flips it; a clear bit or a clipped pixel leaves everything alone (R161). -/
def drawPixel (px py : Nat) (bit : Bool) (acc : Display × Bool) : Display × Bool :=
  if px < dispW && py < dispH && bit then
    (acc.1.flip (cellIndex px py), acc.2 || collisionFlag acc.1 (cellIndex px py))
  else acc

/-- One sprite row at anchor column `x0`, screen row `py`: bit 7 is the leftmost pixel (R161). -/
def drawRow (x0 py : Nat) (row : Byte) (acc : Display × Bool) : Display × Bool :=
  (List.range 8).foldl (fun acc c => drawPixel (x0 + c) py (row.getLsbD (7 - c)) acc) acc

/-- The sprite's rows from screen row `py` downwards (R161's outer loop). -/
def drawRows (x0 : Nat) : Nat → List Byte → Display × Bool → Display × Bool
  | _, [], acc => acc
  | py, row :: rows, acc => drawRows x0 (py + 1) rows (drawRow x0 py row acc)

/-- The blit of sprite rows at an anchor: the new display, and whether a cell went from 1 to 0 (R161). -/
def blit (d : Display) (x0 y0 : Nat) (rows : List Byte) : Display × Bool := drawRows x0 y0 rows (d, false)

/-- 00E0 (R160). -/
def execCls (s : State) : Result := .next { s.advance with disp := 0 }

/-- Dxyn: all `n` sprite bytes are checked and read first; VF is the collision (R161). -/
def execDrw (x y : Reg) (n : Fin 16) (s : State) : Result :=
  let b := blit s.disp (anchorCol s.v[x]) (anchorRow s.v[y]) (s.readBytes s.i.toNat n.val)
  accessOrRaise s n.val ({ s.advance with disp := b.1 }.setVF b.2)

end Sys2Proof.Machine
end

