-- ==== Sys2Proof/Machine/KeypadTimers.lean ====
section
/-! DEFINITION. Keypad and timer instructions: Ex9E, ExA1, Fx0A, Fx07, Fx15, Fx18 (44_keypad_timers.md). -/

namespace Sys2Proof.Machine

/-- Ex9E (R170, R176). -/
def execSkp (x : Reg) (s : State) : Result := .next (s.advance.skipIf s.key[keySelect s.v[x]])

/-- ExA1 (R171, R176). -/
def execSknp (x : Reg) (s : State) : Result := .next (s.advance.skipIf (!s.key[keySelect s.v[x]]))

/-- Fx0A: with no key down the advance is undone and the same instruction runs next step; else the least pressed key
(R172). -/
def execLdVxK (x : Reg) (s : State) : Result :=
  match s.lowestKey with
  | none   => .next (s.advance.setPc (s.advance.pc - 2))
  | some k => .next (s.advance.setReg x (BitVec.ofNat 8 k.val))

/-- Fx07 (R173). -/
def execLdVxDt (x : Reg) (s : State) : Result := .next (s.advance.setReg x s.dt)

/-- Fx15 (R174). -/
def execLdDtVx (x : Reg) (s : State) : Result := .next { s.advance with dt := s.v[x] }

/-- Fx18 (R175). -/
def execLdStVx (x : Reg) (s : State) : Result := .next { s.advance with st := s.v[x] }

end Sys2Proof.Machine
end

