-- ==== Sys2Proof/Machine/Engine.lean ====
section
/-! DEFINITION. The engine: fetch, and the `StepTick` event (40_flow.md R100). -/

namespace Sys2Proof.Machine

/-- `MemRead(PC, 1) ## MemRead(PC + 1, 1)`: big-endian (R100, 20_memory.md R54). -/
def State.fetchOp (s : State) : Word := combine (s.readByte s.pc.toNat) (s.readByte (s.pc.toNat + 1))

/-- The second byte of the instruction would lie beyond 4095 (R100). -/
def State.fetchOob (s : State) : Bool := decide (s.pc.toNat > 4094)

/-- The core is halted (10_state.md R29, 60_exceptions.md R204). -/
def State.halted (s : State) : Bool := s.fault != .none

/-- `StepTick` with the random byte `s.rnd`: nothing when halted; MemoryOutOfBounds when the fetch goes beyond 4095;
else the instruction at `PC` (R100, R204). -/
def State.stepTick (s : State) : Result :=
  if s.halted then .next s
  else if s.fetchOob then s.raise .memoryOob
  else exec (decodeWord s.fetchOp) s

end Sys2Proof.Machine
end

