-- ==== Sys2Proof/Machine/Events.lean ====
section
/-! DEFINITION. The six events (00_scope.md R7): reset and load (70_reset_and_hazards.md R240 to R242), the step tick,
the timer tick and the key events (60_exceptions.md R211, R214). -/

namespace Sys2Proof.Machine

/-- `Reset`: every state element as in 10_state.md R33; the inputs, and what the host does next, are not the core's
and stay (R240; log 18). -/
def State.resetEvent (s : State) : State :=
  { State.resetWith s.cfg with rnd := s.rnd, draws := s.draws, pending := s.pending, later := s.later }

/-- `Load(rom)`: all that `Reset` does, then the ROM bytes from 0x200 up; refused whole above 3584 bytes
(R241, R242). -/
def State.loadEvent (s : State) (rom : List Byte) : Result :=
  if rom.length ≤ romMax then .next (s.resetEvent.writeBytes progBase rom) else .refused .romTooLong

/-- A timer's count: down by exactly 1, floored at 0 (60_exceptions.md R211). -/
def countDown (w : Byte) : Byte := if w.toNat > 0 then w - 1 else w

/-- `TimerTick` (60_exceptions.md R211), accepted in every state, halted or not (R204). -/
def State.timerTick (s : State) : State := { s with dt := countDown s.dt, st := countDown s.st }

/-- `KeyPress(k)` and `KeyRelease(k)` (60_exceptions.md R214), accepted in every state, halted or not (R204). -/
def State.setKey (s : State) (k : Key) (down : Bool) : State := { s with key := s.key.set k.val down k.isLt }

/-- `StepTick(rnd)` with the host's own random byte for this step only: the byte that was to be given to the next
step is still to come (log 3). -/
def State.stepTickWith (s : State) (rnd : Byte) : Result :=
  match State.stepTick { s with rnd := rnd } with
  | .next t    => .next { t with rnd := s.rnd, draws := s.draws }
  | .fault f   => .fault f
  | .refused r => .refused r

/-- The effect of one event, one indivisible transition (00_scope.md R8). -/
def applyEvent (e : Event) (s : State) : Result :=
  match e with
  | .reset        => .next s.resetEvent
  | .load rom     => s.loadEvent rom
  | .stepTick rnd => s.stepTickWith rnd
  | .timerTick    => .next s.timerTick
  | .keyPress k   => .next (s.setKey k true)
  | .keyRelease k => .next (s.setKey k false)

/-- The event the host issues next, and the state with it taken off the schedule; `none` for the `StepTick` of the
schedule `steps`, which brings the model's own random byte (00_scope.md R8, 60_exceptions.md R213; logs 4, 23). -/
def State.nextScheduled (s : State) : Option (Event × State) :=
  match s.pending, s.later with
  | e :: rest, _        => some (e, { s with pending := rest })
  | [], .steps          => none
  | [], .cycle e rest   => some (e, { s with pending := rest })
  | [], .free n         => some (Config.freeEvent n, { s with later := .free (n + 1) })

/-- The next transition: the event the host issues next takes effect (00_scope.md R8). -/
def nextEvent (s : State) : Result :=
  match s.nextScheduled with
  | none        => s.stepTick
  | some (e, u) => applyEvent e u

end Sys2Proof.Machine
end

