-- ==== Sys2Proof/Machine/Outputs.lean ====
section
/-! DEFINITION. What the host may sample between events (10_state.md R35): `DISPLAY`, `SOUND`, `FAULT` with `PC`. -/

namespace Sys2Proof.Machine

/-- `DISPLAY`: the cell at a column and a row, as it stands between two events (R35). -/
def State.displayOut (s : State) (col : Fin 64) (row : Fin 32) : Bool := s.disp.cell (cellIndex col.val row.val)

/-- `SOUND = (ST != 0)` (R35, 60_exceptions.md R212). -/
def State.soundOut (s : State) : Bool := s.st != 0

/-- The numeric code of the latch (60_exceptions.md R200). -/
def FaultLatch.code : FaultLatch → Nat
  | .none           => 0
  | .stackOverflow  => 1
  | .stackUnderflow => 2
  | .memoryOob      => 3

/-- `FAULT`, with the program counter (R35). -/
def State.faultOut (s : State) : Nat × Word := (s.fault.code, s.pc)

end Sys2Proof.Machine
end

