-- ==== Sys2Proof/Machine/Step.lean ====
section
/-! DEFINITION. The one step: the next event of the host's schedule (00_scope.md R7, R8; logs 4, 23), and where a test word
is placed so that the very next step runs it. -/

namespace Sys2Proof.Machine

/-- One transition of the machine. -/
def step (s : State) : Host.Outcome State Fault Refusal := nextEvent s

/-- `s` with an opcode-table word stored where the next step fetches: a step tick comes next, no halt, and a
program counter that can be fetched from (0x200 where it cannot) (log 15). -/
def State.withFetchWord (s : State) (nbits w : Nat) : State :=
  let s0 := { s with pending := [], later := .steps, fault := .none, pc := if s.fetchOob then 0x0200 else s.pc }
  s0.writeBytes s0.pc.toNat (opcodeBytes (tableWord nbits w))

end Sys2Proof.Machine
end

