-- ==== Sys2Proof/Safety.lean ====
section
/-! DEFINITION. The terms the claims use: the invariants of the machine, the end of a run, the table of who raises
what, and what of a state can be observed. -/

namespace Sys2Proof.Machine

/-- Memory is in canonical form (log 14). -/
def State.memCanonical (s : State) : Prop := s.mem.wf s.cfg.font

/-- "The largest value any rule can give it is 0x10FE" (10_state.md R23), with what that rests on: a live stack entry
is "always an instruction address plus 2, at most 4096" (40_flow.md R101). -/
def State.pcBounded (s : State) : Prop :=
  s.pc.toNat ≤ 0x10FE ∧ ∀ (j : Nat) (h : j < 16), j < s.sp.val → s.stk[j].toNat ≤ 4096

/-- What every event keeps. -/
def State.Inv (s : State) : Prop := s.memCanonical ∧ s.pcBounded

/-- A run has ended normally: no fault, and the word at `PC` is the jump to itself (70_reset_and_hazards.md R251). -/
def State.endedNormally (s : State) : Prop :=
  s.fault = .none ∧ s.pc.toNat ≤ 4094 ∧ s.fetchOp = 0x1000#16 ||| s.pc

/-! ### Schedules: one event after another, without end -/

/-- The first `k` events of a schedule, one after another. -/
def runEvents (σ : Nat → Event) : Nat → State → Result
  | 0, s => .next s
  | k + 1, s =>
    match runEvents σ k s with
    | .next t    => applyEvent (σ k) t
    | .fault f   => .fault f
    | .refused r => .refused r

/-- A key event: the host's, and of no effect but on one keypad flag (60_exceptions.md R214). -/
def isKeyEvent : Event → Bool
  | .keyPress _ | .keyRelease _ => true
  | .reset | .load _ | .stepTick _ | .timerTick => false

/-- One of the four events whose interleaving is free (00_scope.md R8). -/
def isInterleaved : Event → Bool
  | .stepTick _ | .timerTick | .keyPress _ | .keyRelease _ => true
  | .reset | .load _ => false

/-- Fairness to the timer: "each schedule fires again" (60_exceptions.md R213), for the timer schedule. -/
def fairToTimer (σ : Nat → Event) : Prop := ∀ n : Nat, ∃ m : Nat, n ≤ m ∧ σ m = .timerTick

/-- Fairness to the engine: the instruction-rate schedule fires again (R213). -/
def fairToEngine (σ : Nat → Event) : Prop := ∀ n : Nat, ∃ (m : Nat) (r : Byte), n ≤ m ∧ σ m = .stepTick r

/-- Which instruction raises what (60_exceptions.md R201, the rows after the fetch), in that table's own terms. -/
def raisedBy (i : Instr) (s : State) : Option FaultLatch :=
  match i with
  | .call _    => if s.sp.val = 16 then some .stackOverflow else none
  | .ret       => if s.sp.val = 0 then some .stackUnderflow else none
  | .drw _ _ n => if n.val > 0 ∧ s.i.toNat + n.val - 1 > 4095 then some .memoryOob else none
  | .ldB _     => if s.i.toNat + 2 > 4095 then some .memoryOob else none
  | .stRegs x  => if s.i.toNat + x.val > 4095 then some .memoryOob else none
  | .ldRegs x  => if s.i.toNat + x.val > 4095 then some .memoryOob else none
  | .cls | .jp _ | .seImm _ _ | .sneImm _ _ | .seReg _ _ | .sneReg _ _ | .ldImm _ _ | .addImm _ _ | .ldReg _ _
  | .orReg _ _ | .andReg _ _ | .xorReg _ _ | .addReg _ _ | .subReg _ _ | .shrReg _ _ | .subnReg _ _ | .shlReg _ _
  | .ldI _ | .jpV0 _ | .rnd _ _ | .skp _ | .sknp _ | .ldVxDt _ | .ldDtVx _ | .ldStVx _ | .ldVxK _ | .addI _
  | .ldF _ | .nop0 _ | .nop5 _ | .nop8 _ | .nop9 _ | .nopE _ | .nopF _ => none

/-- Two states that differ at most in stack slots at or above `SP` (10_state.md R24: not observable by any instruction
or output). -/
def State.sameButDeadSlots (s t : State) : Prop :=
  t = { s with stk := t.stk } ∧ ∀ (j : Nat) (h : j < 16), j < s.sp.val → t.stk[j] = s.stk[j]

/-- Is cell (col, row) under a set pixel of the sprite whose `n` rows start at address `a`, anchored at (x0, y0)? Bit 7
of a row is its leftmost pixel (43_display.md R161). -/
def State.spritePixel (s : State) (a n x0 y0 col row : Nat) : Bool :=
  decide (x0 ≤ col ∧ col < x0 + 8 ∧ y0 ≤ row ∧ row < y0 + n)
    && (s.readByte (a + (row - y0))).getLsbD (7 - (col - x0))

/-- Does the instruction write `V[r]` as its destination, flag apart? (10_state.md section 1, 41_alu.md, R145, R172,
R173.) -/
def writesReg (i : Instr) (r : Reg) : Bool :=
  match i with
  | .ldImm x _ | .addImm x _ | .ldReg x _ | .orReg x _ | .andReg x _ | .xorReg x _ | .addReg x _ | .subReg x _
  | .shrReg x _ | .subnReg x _ | .shlReg x _ | .rnd x _ | .ldVxDt x | .ldVxK x => r == x
  | .ldRegs x => decide (r ≤ x)
  | .cls | .ret | .jp _ | .call _ | .seImm _ _ | .sneImm _ _ | .seReg _ _ | .sneReg _ _ | .ldI _ | .jpV0 _
  | .drw _ _ _ | .skp _ | .sknp _ | .ldDtVx _ | .ldStVx _ | .addI _ | .ldF _ | .ldB _ | .stRegs _
  | .nop0 _ | .nop5 _ | .nop8 _ | .nop9 _ | .nopE _ | .nopF _ => false

/-- The instructions that write a general register at all, VF as a flag included: the row "V[0] to V[15]" of 10_state.md
section 1. -/
def writesSomeReg (i : Instr) (cfg : Config) : Bool :=
  match i with
  | .ldImm _ _ | .addImm _ _ | .ldReg _ _ | .orReg _ _ | .andReg _ _ | .xorReg _ _ | .addReg _ _ | .subReg _ _
  | .shrReg _ _ | .subnReg _ _ | .shlReg _ _ | .rnd _ _ | .drw _ _ _ | .ldVxDt _ | .ldVxK _ | .ldRegs _ => true
  | .addI _ => cfg.qAddiVf == .on
  | .cls | .ret | .jp _ | .call _ | .seImm _ _ | .sneImm _ _ | .seReg _ _ | .sneReg _ _ | .ldI _ | .jpV0 _
  | .skp _ | .sknp _ | .ldDtVx _ | .ldStVx _ | .ldF _ | .ldB _ | .stRegs _
  | .nop0 _ | .nop5 _ | .nop8 _ | .nop9 _ | .nopE _ | .nopF _ => false

/-- The instructions that leave `PC` elsewhere than at the advanced value: "every other instruction, including every
unmatched encoding, leaves it at the advanced value" (10_state.md R23). -/
def movesPc (i : Instr) : Bool :=
  match i with
  | .jp _ | .jpV0 _ | .call _ | .ret | .seImm _ _ | .sneImm _ _ | .seReg _ _ | .sneReg _ _ | .skp _ | .sknp _
  | .ldVxK _ => true
  | .cls | .ldImm _ _ | .addImm _ _ | .ldReg _ _ | .orReg _ _ | .andReg _ _ | .xorReg _ _ | .addReg _ _ | .subReg _ _
  | .shrReg _ _ | .subnReg _ _ | .shlReg _ _ | .ldI _ | .rnd _ _ | .drw _ _ _ | .ldVxDt _ | .ldDtVx _ | .ldStVx _
  | .addI _ | .ldF _ | .ldB _ | .stRegs _ | .ldRegs _
  | .nop0 _ | .nop5 _ | .nop8 _ | .nop9 _ | .nopE _ | .nopF _ => false

/-- The opcodes that define a flag: 8xy4, 8xy5, 8xy6, 8xy7, 8xyE, Dxyn "and, only when `CFG.Q_ADDI_VF = ON`, Fx1E"
(10_state.md R21). -/
def definesFlag (i : Instr) (cfg : Config) : Bool :=
  match i with
  | .addReg _ _ | .subReg _ _ | .shrReg _ _ | .subnReg _ _ | .shlReg _ _ | .drw _ _ _ => true
  | .addI _ => cfg.qAddiVf == .on
  | .cls | .ret | .jp _ | .call _ | .seImm _ _ | .sneImm _ _ | .seReg _ _ | .sneReg _ _ | .ldImm _ _ | .addImm _ _
  | .ldReg _ _ | .orReg _ _ | .andReg _ _ | .xorReg _ _ | .ldI _ | .jpV0 _ | .rnd _ _ | .skp _ | .sknp _
  | .ldVxDt _ | .ldDtVx _ | .ldStVx _ | .ldVxK _ | .ldF _ | .ldB _ | .stRegs _ | .ldRegs _
  | .nop0 _ | .nop5 _ | .nop8 _ | .nop9 _ | .nopE _ | .nopF _ => false

/-- The opcodes whose result is written after their flag, so that the flag is lost when x is 0xF (41_alu.md R120). -/
def flagLost (i : Instr) : Bool :=
  match i with
  | .subReg x _ | .shrReg x _ | .subnReg x _ | .shlReg x _ => x == Reg.vf
  | .cls | .ret | .jp _ | .call _ | .seImm _ _ | .sneImm _ _ | .seReg _ _ | .sneReg _ _ | .ldImm _ _ | .addImm _ _
  | .ldReg _ _ | .orReg _ _ | .andReg _ _ | .xorReg _ _ | .addReg _ _ | .ldI _ | .jpV0 _ | .rnd _ _ | .drw _ _ _
  | .skp _ | .sknp _ | .ldVxDt _ | .ldDtVx _ | .ldStVx _ | .ldVxK _ | .addI _ | .ldF _ | .ldB _ | .stRegs _
  | .ldRegs _ | .nop0 _ | .nop5 _ | .nop8 _ | .nop9 _ | .nopE _ | .nopF _ => false

/-! ### The encodings as the instruction rules write them -/

/-- "`base | nnn`". -/
def opNNN (base : Word) (nnn : BitVec 12) : Word := base ||| nnn.setWidth 16

/-- "`base | x << 8`". -/
def opX (base : Word) (x : Reg) : Word := base ||| BitVec.ofNat 16 x.val <<< 8

/-- "`base | x << 8 | kk`". -/
def opXKK (base : Word) (x : Reg) (kk : Byte) : Word := base ||| BitVec.ofNat 16 x.val <<< 8 ||| kk.setWidth 16

/-- "`base | x << 8 | y << 4`". -/
def opXY (base : Word) (x y : Reg) : Word := base ||| BitVec.ofNat 16 x.val <<< 8 ||| BitVec.ofNat 16 y.val <<< 4

/-- "`base | x << 8 | y << 4 | n`". -/
def opXYN (base : Word) (x y : Reg) (n : Fin 16) : Word := opXY base x y ||| BitVec.ofNat 16 n.val

/-! ### Frames: what a step left alone -/

/-- Every byte of memory reads as before. -/
def sameBytes (s t : State) : Prop := ∀ a : Nat, t.readByte a = s.readByte a

/-- Only `PC` changed, to `p`. -/
def onlyPc (s t : State) (p : Word) : Prop := t = { s with pc := p } ∧ sameBytes s t

/-- Only `V[x]` changed, to `w`, and `PC` to the address plus 2. -/
def onlyReg (s t : State) (x : Reg) (w : Byte) : Prop :=
  t.v[x] = w ∧ (∀ r : Reg, r ≠ x → t.v[r] = s.v[r]) ∧ sameBytes s t ∧ t = { s with v := t.v, pc := s.pc + 2 }

/-- Only registers for which `p` holds changed, and `PC` to the address plus 2. -/
def onlyRegs (s t : State) (p : Reg → Prop) : Prop :=
  (∀ r : Reg, ¬p r → t.v[r] = s.v[r]) ∧ sameBytes s t ∧ t = { s with v := t.v, pc := s.pc + 2 }

end Sys2Proof.Machine
end

