-- ==== Sys2Proof/Certificates/Slice0/Obligations.lean ====
section
/-! DEFINITION. The statements for the provers, from the numbered rules of spec/. A statement about exec is about the
state at the START of the step, `PC` at the instruction, and its conclusion is that exec answers a next state. Those
that rest on a decision of the spec say so (92_eei_decisions.md). -/

open Sys2Proof Sys2Proof.Machine

/-! ### Encoding -/

/-- Decoding the stored bytes of an encoded well-formed instruction gives it back, whatever follows. -/
def Obligations.DecodeEncodeRoundTrip : Prop :=
  ∀ (i : Instr) (rest : List Byte), i.wf = true → decode (opcodeBytes (encode i) ++ rest) = .ok (i, rest)

/-- Every opcode is the encoding of one well-formed instruction (30_encoding.md R71, R76). -/
def Obligations.EncodeDecodeRoundTrip : Prop :=
  ∀ op : Word, (decodeWord op).wf = true ∧ encode (decodeWord op) = op

/-- R74: "An opcode `op` selects row r when `(op & mask_r) = match_r`. The 34 mask and match pairs are pairwise
disjoint", and an opcode that selects none is the thirty-fifth outcome. That every literal digit is compared, so that
the masks are these, is decision D16 of the spec (log 11). -/
def Obligations.DecoderFollowsOpcodeMap : Prop :=
  ∀ op : Word,
    (∀ r ∈ opcodeMap, op &&& r.mask = r.pattern ↔ (decodeWord op).row = r.number) ∧
    (∀ r ∈ opcodeMap, ∀ q ∈ opcodeMap, op &&& r.mask = r.pattern → op &&& q.mask = q.pattern → r = q) ∧
    ((∀ r ∈ opcodeMap, op &&& r.mask ≠ r.pattern) ↔ (decodeWord op).row = 35)

/-- R71: the six fields by their bit positions, in arithmetic; the overlaps; the fields in terms of the two bytes; no
two bytes are refused. -/
def Obligations.OpcodeFieldsAreTheBits : Prop :=
  (∀ op : Word,
    (fields op).cls.toNat = op.toNat / 4096 ∧ (fields op).x.toNat = op.toNat / 256 % 16 ∧
    (fields op).y.toNat = op.toNat / 16 % 16 ∧ (fields op).n.toNat = op.toNat % 16 ∧
    (fields op).kk.toNat = op.toNat % 256 ∧ (fields op).nnn.toNat = op.toNat % 4096 ∧
    (fields op).kk.toNat = 16 * (fields op).y.toNat + (fields op).n.toNat ∧
    (fields op).nnn.toNat = 256 * (fields op).x.toNat + (fields op).kk.toNat) ∧
  ∀ (hi lo : Byte) (rest : List Byte),
    (fields (combine hi lo)).cls.toNat = hi.toNat / 16 ∧ (fields (combine hi lo)).x.toNat = hi.toNat % 16 ∧
    (fields (combine hi lo)).kk = lo ∧ ∃ i : Instr, decode (hi :: lo :: rest) = .ok (i, rest)

/-- Words written out bit by bit from R74's patterns (0x8AB4, 0xD125, 0xF533 are rows of 95_test_vectors.md S1). -/
def Obligations.WrittenOutWordsDecode : Prop :=
  decodeWord 0b0000000011100000#16 = .cls ∧ decodeWord 0b0000000011101110#16 = .ret ∧
  decodeWord 0b0001101010111100#16 = .jp 0xABC ∧ decodeWord 0b1000101010110100#16 = .addReg 0xA 0xB ∧
  decodeWord 0b1101000100100101#16 = .drw 1 2 5 ∧ decodeWord 0b1111010100110011#16 = .ldB 5 ∧
  decodeWord 0b1110000110011110#16 = .skp 1 ∧ decodeWord 0b1111111111111111#16 = .nopF 0xFFF ∧
  decodeWord 0b0000000000000000#16 = .nop0 0

/-! ### The step -/

/-- When the two bytes at `PC` decode to i and the core is neither halted nor at the end of memory, the step tick is exec
of i: the one that the schedule `steps` issues when no event is pending; every `StepTick(r)`, whose byte serves that
step only; and so a step with `StepTick(r)` pending first (logs 3, 4, 23). -/
def Obligations.StepRunsDecodedInstruction : Prop :=
  ∀ (s : State) (i : Instr), s.fault = .none → s.pc.toNat ≤ 4094 →
    decode [s.readByte s.pc.toNat, s.readByte (s.pc.toNat + 1)] = .ok (i, []) →
    (s.pending = [] → s.later = .steps → step s = exec i s) ∧
    (∀ (r : Byte) (t : State), exec i { s with rnd := r } = .next t →
      applyEvent (.stepTick r) s = .next { t with rnd := s.rnd, draws := s.draws }) ∧
    ∀ (r : Byte) (rest : List Event) (t : State), s.pending = .stepTick r :: rest →
      exec i { s with pending := rest, rnd := r } = .next t →
      step s = .next { t with rnd := s.rnd, draws := s.draws }

/-- The fetch check: with `PC > 4094` a step tick raises MemoryOutOfBounds and, the step being cancelled (decision
D8, log 5), changes nothing else: the model's own step tick, the host's `StepTick(r)` for every r, and a step that takes
either. -/
def Obligations.FetchBeyondMemoryFaults : Prop :=
  ∀ s : State, s.fault = .none → 4094 < s.pc.toNat →
    s.stepTick = .next { s with fault := .memoryOob } ∧
    (∀ r : Byte, applyEvent (.stepTick r) s = .next { s with fault := .memoryOob }) ∧
    (s.pending = [] → s.later = .steps → step s = .next { s with fault := .memoryOob }) ∧
    ∀ (r : Byte) (rest : List Event), s.pending = .stepTick r :: rest →
      step s = .next { s with pending := rest, fault := .memoryOob }

/-- A halted core ignores step ticks, whatever their random byte, while timers and keys work as before
(decisions D9, D10). -/
def Obligations.HaltedCoreIgnoresSteps : Prop :=
  ∀ s : State, s.fault ≠ .none →
    s.stepTick = .next s ∧ (∀ r : Byte, applyEvent (.stepTick r) s = .next s) ∧
    (∃ t, applyEvent .timerTick s = .next t ∧ t.dt.toNat = s.dt.toNat - 1 ∧ t.st.toNat = s.st.toNat - 1 ∧
      t = { s with dt := t.dt, st := t.st }) ∧
    ∀ k : Key,
      (∃ t, applyEvent (.keyPress k) s = .next t ∧ t.key[k] = true ∧
        (∀ j : Key, j ≠ k → t.key[j] = s.key[j]) ∧ t = { s with key := t.key }) ∧
      (∃ t, applyEvent (.keyRelease k) s = .next t ∧ t.key[k] = false ∧
        (∀ j : Key, j ≠ k → t.key[j] = s.key[j]) ∧ t = { s with key := t.key })

/-- The model's schedule, the model's own choice (logs 4, 23): the first pending event comes first and is used up; when
none is pending, a step tick comes under `steps`, the first event of the cycle under `cycle`, whose others are then
pending and which comes round again, and the n-th event of the free schedule under `free n`, whatever that event is. -/
def Obligations.StepTakesFirstPendingEvent : Prop :=
  ∀ s : State,
    (∀ (e : Event) (rest : List Event), s.pending = e :: rest → step s = applyEvent e { s with pending := rest }) ∧
    (s.pending = [] → s.later = .steps → step s = s.stepTick) ∧
    (∀ (e : Event) (rest : List Event), s.pending = [] → s.later = .cycle e rest →
      step s = applyEvent e { s with pending := rest }) ∧
    ∀ n : Nat, s.pending = [] → s.later = .free n →
      step s = applyEvent (Config.freeEvent n) { s with later := .free (n + 1) }

/-- A step always answers a next state, but for a `Load` of more than 3584 bytes that the schedule names next, which is
refused (R242; decision D17, log 16). That a fatal condition is a next state too is the model's reading of decisions D8
and D9 (log 5). -/
def Obligations.StepRefusesOnlyOversizeLoads : Prop :=
  ∀ s : State,
    (∃ t, step s = .next t ∧ ∀ (rom : List Byte) (u : State), s.nextScheduled = some (.load rom, u) →
      rom.length ≤ 3584) ∨
    ∃ (rom : List Byte) (u : State), s.nextScheduled = some (.load rom, u) ∧ 3584 < rom.length ∧
      step s = .refused .romTooLong

/-! ### Control transfer -/

/-- R102: 1nnn. -/
def Obligations.JumpSetsPc : Prop :=
  ∀ (nnn : BitVec 12) (s : State),
    decodeWord (opNNN 0x1000 nnn) = .jp nnn ∧
    ∃ t, exec (.jp nnn) s = .next t ∧ t.pc.toNat = nnn.toNat ∧ onlyPc s t t.pc

/-- R103, a stack that is not full: the address of the next instruction goes to slot `SP`, every other slot stays (the
slots are decision D18). -/
def Obligations.CallPushesReturnAddress : Prop :=
  ∀ (nnn : BitVec 12) (s : State), s.sp.val < 16 →
    decodeWord (opNNN 0x2000 nnn) = .call nnn ∧
    ∃ t, exec (.call nnn) s = .next t ∧ t.pc.toNat = nnn.toNat ∧ t.sp.val = s.sp.val + 1 ∧
      (∀ (j : Nat) (h : j < 16), t.stk[j] = if j = s.sp.val then s.pc + 2 else s.stk[j]) ∧ sameBytes s t ∧
      t = { s with pc := t.pc, sp := t.sp, stk := t.stk }

/-- R101, a stack that is not empty: the newest entry goes to `PC`; no slot is cleared (decision D18). -/
def Obligations.ReturnPopsNewestEntry : Prop :=
  ∀ (s : State) (j : Nat) (h : j < 16), s.sp.val = j + 1 →
    decodeWord 0x00EE = .ret ∧
    ∃ t, exec .ret s = .next t ∧ t.pc = s.stk[j] ∧ t.sp.val = j ∧ sameBytes s t ∧
      t = { s with pc := t.pc, sp := t.sp }

/-- "2nnn from pc=P pushes P+2; subsequent 00EE restores pc to exactly P+2; stack depth returns to its pre-call value":
from any later state u whose stack has the call's entry on top. -/
def Obligations.ReturnAfterCallRestoresPc : Prop :=
  ∀ (nnn : BitVec 12) (s t u : State) (h : s.sp.val < 16), exec (.call nnn) s = .next t → u.sp = t.sp →
    u.stk[s.sp.val] = t.stk[s.sp.val] →
    ∃ w, exec .ret u = .next w ∧ w.pc = s.pc + 2 ∧ w.sp = s.sp

/-- R104: the exact sum, not reduced to 12 bits; the offset register by `Q_JUMP_OFFSET` (decision D3). -/
def Obligations.JumpWithOffsetAddsRegister : Prop :=
  ∀ (nnn : BitVec 12) (x : Reg) (s : State), x.val = nnn.toNat / 256 →
    decodeWord (opNNN 0xB000 nnn) = .jpV0 nnn ∧
    ∃ t, exec (.jpV0 nnn) s = .next t ∧
      (s.cfg.qJumpOffset = .v0 → t.pc.toNat = nnn.toNat + s.v[(0 : Reg)].toNat) ∧
      (s.cfg.qJumpOffset = .vx → t.pc.toNat = nnn.toNat + s.v[x].toNat) ∧ onlyPc s t t.pc

/-- R105 and R106: 3xkk and 4xkk. -/
def Obligations.ImmediateSkips : Prop :=
  ∀ (x : Reg) (kk : Byte) (s : State),
    decodeWord (opXKK 0x3000 x kk) = .seImm x kk ∧ decodeWord (opXKK 0x4000 x kk) = .sneImm x kk ∧
    (∃ t, exec (.seImm x kk) s = .next t ∧ onlyPc s t (if s.v[x] = kk then s.pc + 4 else s.pc + 2)) ∧
    (∃ t, exec (.sneImm x kk) s = .next t ∧ onlyPc s t (if s.v[x] ≠ kk then s.pc + 4 else s.pc + 2))

/-- R107 and R108: 5xy0 and 9xy0. -/
def Obligations.RegisterSkips : Prop :=
  ∀ (x y : Reg) (s : State),
    decodeWord (opXY 0x5000 x y) = .seReg x y ∧ decodeWord (opXY 0x9000 x y) = .sneReg x y ∧
    (∃ t, exec (.seReg x y) s = .next t ∧ onlyPc s t (if s.v[x] = s.v[y] then s.pc + 4 else s.pc + 2)) ∧
    (∃ t, exec (.sneReg x y) s = .next t ∧ onlyPc s t (if s.v[x] ≠ s.v[y] then s.pc + 4 else s.pc + 2))

/-- R109: every opcode that selects no row only advances `PC`; and so does each of the six no-op rows. -/
def Obligations.UnmatchedOpcodesAreNoOps : Prop :=
  (∀ (op : Word) (s : State), (∀ r ∈ opcodeMap, op &&& r.mask ≠ r.pattern) →
    ∃ t, exec (decodeWord op) s = .next t ∧ onlyPc s t (s.pc + 2)) ∧
  ∀ (low : BitVec 12) (s : State) (i : Instr),
    i ∈ [Instr.nop0 low, .nop5 low, .nop8 low, .nop9 low, .nopE low, .nopF low] →
    ∃ t, exec i s = .next t ∧ onlyPc s t (s.pc + 2)

/-! ### Registers and flag -/

/-- R121 and R123: 6xkk and 8xy0. -/
def Obligations.LoadsIntoRegister : Prop :=
  ∀ (x y : Reg) (kk : Byte) (s : State),
    decodeWord (opXKK 0x6000 x kk) = .ldImm x kk ∧ decodeWord (opXY 0x8000 x y) = .ldReg x y ∧
    (∃ t, exec (.ldImm x kk) s = .next t ∧ onlyReg s t x kk) ∧
    (∃ t, exec (.ldReg x y) s = .next t ∧ onlyReg s t x s.v[y])

/-- R122: 7xkk, mod 256, VF untouched unless x is 0xF. -/
def Obligations.AddImmediateWraps : Prop :=
  ∀ (x : Reg) (kk : Byte) (s : State),
    decodeWord (opXKK 0x7000 x kk) = .addImm x kk ∧
    ∃ t, exec (.addImm x kk) s = .next t ∧ t.v[x].toNat = (s.v[x].toNat + kk.toNat) % 256 ∧ onlyReg s t x t.v[x]

/-- R124, R125, R126: 8xy1, 8xy2, 8xy3, bit by bit, no flag. -/
def Obligations.LogicWritesNoFlag : Prop :=
  ∀ (x y : Reg) (s : State),
    decodeWord (opXY 0x8001 x y) = .orReg x y ∧ decodeWord (opXY 0x8002 x y) = .andReg x y ∧
    decodeWord (opXY 0x8003 x y) = .xorReg x y ∧
    (∃ t, exec (.orReg x y) s = .next t ∧ onlyReg s t x t.v[x] ∧
      ∀ b < 8, t.v[x].getLsbD b = (s.v[x].getLsbD b || s.v[y].getLsbD b)) ∧
    (∃ t, exec (.andReg x y) s = .next t ∧ onlyReg s t x t.v[x] ∧
      ∀ b < 8, t.v[x].getLsbD b = (s.v[x].getLsbD b && s.v[y].getLsbD b)) ∧
    (∃ t, exec (.xorReg x y) s = .next t ∧ onlyReg s t x t.v[x] ∧
      ∀ b < 8, t.v[x].getLsbD b = (s.v[x].getLsbD b ^^ s.v[y].getLsbD b))

/-- R127: 8xy4; VF is the carry, written last (with x = 0xF: decision D7). -/
def Obligations.AddWritesCarryLast : Prop :=
  ∀ (x y : Reg) (s : State),
    decodeWord (opXY 0x8004 x y) = .addReg x y ∧
    ∃ t, exec (.addReg x y) s = .next t ∧
      t.v[Reg.vf] = (if s.v[x].toNat + s.v[y].toNat > 255 then 1 else 0) ∧
      (x ≠ Reg.vf → t.v[x].toNat = (s.v[x].toNat + s.v[y].toNat) % 256) ∧
      onlyRegs s t (fun r => r = x ∨ r = Reg.vf)

/-- R128 and R130: 8xy5 and 8xy7; the flag is the strict comparison, the result is written last (with x = 0xF:
decision D7). -/
def Obligations.SubtractWritesResultLast : Prop :=
  ∀ (x y : Reg) (s : State),
    decodeWord (opXY 0x8005 x y) = .subReg x y ∧ decodeWord (opXY 0x8007 x y) = .subnReg x y ∧
    (∃ t, exec (.subReg x y) s = .next t ∧ t.v[x].toNat = (s.v[x].toNat + 256 - s.v[y].toNat) % 256 ∧
      (x ≠ Reg.vf → t.v[Reg.vf] = if s.v[x].toNat > s.v[y].toNat then 1 else 0) ∧
      onlyRegs s t (fun r => r = x ∨ r = Reg.vf)) ∧
    (∃ t, exec (.subnReg x y) s = .next t ∧ t.v[x].toNat = (s.v[y].toNat + 256 - s.v[x].toNat) % 256 ∧
      (x ≠ Reg.vf → t.v[Reg.vf] = if s.v[y].toNat > s.v[x].toNat then 1 else 0) ∧
      onlyRegs s t (fun r => r = x ∨ r = Reg.vf))

/-- R129 and R131: 8xy6 and 8xyE under both values of `Q_SHIFT_SRC`, src being the shift source; the result is written
last (with x = 0xF: decision D7). -/
def Obligations.ShiftsMoveOneBit : Prop :=
  ∀ (x y : Reg) (s : State) (src : Byte),
    src = (if s.cfg.qShiftSrc = .vy then s.v[y] else s.v[x]) →
    decodeWord (opXY 0x8006 x y) = .shrReg x y ∧ decodeWord (opXY 0x800E x y) = .shlReg x y ∧
    (∃ t, exec (.shrReg x y) s = .next t ∧ t.v[x].toNat = src.toNat / 2 ∧
      (x ≠ Reg.vf → t.v[Reg.vf].toNat = src.toNat % 2) ∧ onlyRegs s t (fun r => r = x ∨ r = Reg.vf)) ∧
    (∃ t, exec (.shlReg x y) s = .next t ∧ t.v[x].toNat = 2 * src.toNat % 256 ∧
      (x ≠ Reg.vf → t.v[Reg.vf].toNat = src.toNat / 128) ∧ onlyRegs s t (fun r => r = x ∨ r = Reg.vf))

/-- R132: 8 bits of the step's random byte, masked; a fresh byte is drawn (decision D12, log 3: for every byte). -/
def Obligations.RandomIsMaskedDraw : Prop :=
  ∀ (x : Reg) (kk : Byte) (s : State),
    decodeWord (opXKK 0xC000 x kk) = .rnd x kk ∧
    ∃ t, exec (.rnd x kk) s = .next t ∧ t.v[x] = s.rnd &&& kk ∧ (∀ r : Reg, r ≠ x → t.v[r] = s.v[r]) ∧
      (∀ b < 8, kk.getLsbD b = false → t.v[x].getLsbD b = false) ∧ sameBytes s t ∧
      t = { s with v := t.v, pc := s.pc + 2, rnd := Config.freeRnd s.draws, draws := s.draws + 1 }

/-- "`rnd` is used only by Cxkk" (R100): with any other instruction, another random byte changes nothing. -/
def Obligations.RandomByteMattersOnlyToRnd : Prop :=
  ∀ (i : Instr) (s t : State) (r : Byte), (∀ x kk, i ≠ .rnd x kk) → exec i s = .next t →
    exec i { s with rnd := r } = .next { t with rnd := r }

/-! ### Index register and memory -/

/-- R140: Annn. -/
def Obligations.LoadIndexZeroExtends : Prop :=
  ∀ (nnn : BitVec 12) (s : State),
    decodeWord (opNNN 0xA000 nnn) = .ldI nnn ∧
    ∃ t, exec (.ldI nnn) s = .next t ∧ t.i.toNat = nnn.toNat ∧ sameBytes s t ∧
      t = { s with i := t.i, pc := s.pc + 2 }

/-- R141: Fx1E, mod 65536; VF only under `Q_ADDI_VF = ON`, against `ADDI_OVF_LIMIT` (decision D5). -/
def Obligations.AddIndexWrapsAt16Bits : Prop :=
  ∀ (x : Reg) (s : State),
    decodeWord (opX 0xF01E x) = .addI x ∧
    ∃ t, exec (.addI x) s = .next t ∧ t.i.toNat = (s.i.toNat + s.v[x].toNat) % 65536 ∧
      (s.cfg.qAddiVf = .off → t.v = s.v) ∧
      (s.cfg.qAddiVf = .on →
        t.v[Reg.vf] = if s.i.toNat + s.v[x].toNat > s.cfg.addiOvfLimit then 1 else 0) ∧
      (∀ r : Reg, r ≠ Reg.vf → t.v[r] = s.v[r]) ∧ sameBytes s t ∧
      t = { s with i := t.i, v := t.v, pc := s.pc + 2 }

/-- R142: Fx29, the whole byte, no masking (decision D26). -/
def Obligations.GlyphAddressIsUnmasked : Prop :=
  ∀ (x : Reg) (s : State),
    decodeWord (opX 0xF029 x) = .ldF x ∧
    ∃ t, exec (.ldF x) s = .next t ∧ t.i.toNat = 0x50 + 5 * s.v[x].toNat ∧ sameBytes s t ∧
      t = { s with i := t.i, pc := s.pc + 2 }

/-- In memory as reset left it, `I` after Fx29 with a digit points at that digit's five bytes of `FONT`, whatever
`FONT` is (R51, R142). -/
def Obligations.GlyphAddressPointsAtFont : Prop :=
  ∀ (x : Reg) (s : State) (j : Fin 80) (k : Nat), s.mem = [] → s.v[x].toNat < 16 → k < 5 →
    j.val = 5 * s.v[x].toNat + k →
    ∃ t, exec (.ldF x) s = .next t ∧ t.readByte (t.i.toNat + k) = s.cfg.font[j]

/-- R143, in bounds: three decimal digits of Vx at `I`, `I + 1`, `I + 2`, every other byte as before. -/
def Obligations.BcdStoresThreeDigits : Prop :=
  ∀ (x : Reg) (s : State), s.i.toNat + 2 ≤ 4095 →
    decodeWord (opX 0xF033 x) = .ldB x ∧
    ∃ t, exec (.ldB x) s = .next t ∧
      (t.readByte s.i.toNat).toNat = s.v[x].toNat / 100 ∧
      (t.readByte (s.i.toNat + 1)).toNat = s.v[x].toNat / 10 % 10 ∧
      (t.readByte (s.i.toNat + 2)).toNat = s.v[x].toNat % 10 ∧
      100 * (t.readByte s.i.toNat).toNat + 10 * (t.readByte (s.i.toNat + 1)).toNat
        + (t.readByte (s.i.toNat + 2)).toNat = s.v[x].toNat ∧
      (∀ a : Nat, ¬(s.i.toNat ≤ a ∧ a ≤ s.i.toNat + 2) → t.readByte a = s.readByte a) ∧
      t = { s with mem := t.mem, pc := s.pc + 2 }

/-- R144, in bounds: `V[j]` at `I + j` for j from 0 to x, every other byte as before, `I` by `Q_MEM_INC` (decision
D4). -/
def Obligations.StoreRegistersBlock : Prop :=
  ∀ (x : Reg) (s : State), s.i.toNat + x.val ≤ 4095 →
    decodeWord (opX 0xF055 x) = .stRegs x ∧
    ∃ t, exec (.stRegs x) s = .next t ∧ (∀ j : Reg, j ≤ x → t.readByte (s.i.toNat + j.val) = s.v[j]) ∧
      (∀ a : Nat, ¬(s.i.toNat ≤ a ∧ a ≤ s.i.toNat + x.val) → t.readByte a = s.readByte a) ∧
      (s.cfg.qMemInc = .inc → t.i.toNat = s.i.toNat + x.val + 1) ∧ (s.cfg.qMemInc = .noinc → t.i = s.i) ∧
      t = { s with mem := t.mem, i := t.i, pc := s.pc + 2 }

/-- R145, in bounds: `V[j]` from `I + j` for j from 0 to x, registers above x as before, `I` by `Q_MEM_INC` (decision
D4). -/
def Obligations.LoadRegistersBlock : Prop :=
  ∀ (x : Reg) (s : State), s.i.toNat + x.val ≤ 4095 →
    decodeWord (opX 0xF065 x) = .ldRegs x ∧
    ∃ t, exec (.ldRegs x) s = .next t ∧ (∀ j : Reg, j ≤ x → t.v[j] = s.readByte (s.i.toNat + j.val)) ∧
      (∀ j : Reg, x < j → t.v[j] = s.v[j]) ∧ sameBytes s t ∧
      (s.cfg.qMemInc = .inc → t.i.toNat = s.i.toNat + x.val + 1) ∧ (s.cfg.qMemInc = .noinc → t.i = s.i) ∧
      t = { s with v := t.v, i := t.i, pc := s.pc + 2 }

/-- What Fx55 stored, Fx65 at the same `I` brings back into V0 to Vx, whatever the registers held meanwhile. -/
def Obligations.StoreThenLoadRestoresRegisters : Prop :=
  ∀ (x : Reg) (s t u : State), s.i.toNat + x.val ≤ 4095 → exec (.stRegs x) s = .next t →
    u.mem = t.mem → u.cfg = t.cfg → u.i = s.i →
    ∃ w, exec (.ldRegs x) u = .next w ∧ ∀ j : Reg, (j ≤ x → w.v[j] = s.v[j]) ∧ (x < j → w.v[j] = u.v[j])

/-- A word stored by Fx55 over the next instruction is the word the next step fetches (R59, decision D22). -/
def Obligations.StoredWordIsFetchedNext : Prop :=
  ∀ (x : Reg) (s t : State), 1 ≤ x.val → s.pc.toNat ≤ 4092 → s.i = s.pc + 2 → s.i.toNat + x.val ≤ 4095 →
    exec (.stRegs x) s = .next t → t.fetchOp = combine s.v[(0 : Reg)] s.v[(1 : Reg)]

/-- Canonical memories that read the same everywhere are the same data (log 14). -/
def Obligations.CanonicalMemoriesAreEqual : Prop :=
  ∀ (font : Vector Byte fontSize) (m m' : Memory), m.wf font → m'.wf font →
    (∀ a : Nat, m.read font a = m'.read font a) → m = m'

/-! ### Display -/

/-- R160: 00E0. -/
def Obligations.ClearEmptiesDisplay : Prop :=
  ∀ s : State,
    decodeWord 0x00E0 = .cls ∧
    ∃ t, exec .cls s = .next t ∧ (∀ (col : Fin 64) (row : Fin 32), t.displayOut col row = false) ∧
      sameBytes s t ∧ t = { s with disp := t.disp, pc := s.pc + 2 }

/-- R161, in bounds: each cell is flipped exactly when a set sprite pixel lies over it, the anchor reduced mod 64 and
mod 32, the body clipped; VF is 1 exactly when a set cell is flipped, else 0 (decisions D13, D14; with x or y = 0xF:
D7). -/
def Obligations.DrawFlipsSpriteCells : Prop :=
  ∀ (x y : Reg) (n : Fin 16) (s : State) (x0 y0 : Nat),
    (n.val = 0 ∨ s.i.toNat + n.val - 1 ≤ 4095) → x0 = s.v[x].toNat % 64 → y0 = s.v[y].toNat % 32 →
    decodeWord (opXYN 0xD000 x y n) = .drw x y n ∧
    ∃ t, exec (.drw x y n) s = .next t ∧
      (∀ (col : Fin 64) (row : Fin 32),
        t.displayOut col row = (s.displayOut col row ^^ s.spritePixel s.i.toNat n.val x0 y0 col.val row.val)) ∧
      (t.v[Reg.vf] = 1 ↔ ∃ (col : Fin 64) (row : Fin 32), s.displayOut col row = true ∧
        s.spritePixel s.i.toNat n.val x0 y0 col.val row.val = true) ∧
      (t.v[Reg.vf] = 0 ∨ t.v[Reg.vf] = 1) ∧ (∀ r : Reg, r ≠ Reg.vf → t.v[r] = s.v[r]) ∧ sameBytes s t ∧
      t = { s with v := t.v, disp := t.disp, pc := s.pc + 2 }

/-- Drawing the same sprite at the same place twice restores the display, and on a clear display the first draw does
not collide and the second does exactly when the first set a cell (95_test_vectors.md S5; anchor registers other than
VF, since the draw writes VF). -/
def Obligations.DrawTwiceRestoresDisplay : Prop :=
  ∀ (x y : Reg) (n : Fin 16) (s t : State), x ≠ Reg.vf → y ≠ Reg.vf →
    (n.val = 0 ∨ s.i.toNat + n.val - 1 ≤ 4095) → exec (.drw x y n) s = .next t →
    ∃ u, exec (.drw x y n) t = .next u ∧ u.disp = s.disp ∧
      (s.disp = 0 → t.v[Reg.vf] = 0 ∧ (u.v[Reg.vf] = 1 ↔ t.disp ≠ 0))

/-! ### Keypad and timers -/

/-- R170 and R171: Ex9E and ExA1, the key being the low nibble of Vx (decision D11). -/
def Obligations.KeySkipsTestLowNibble : Prop :=
  ∀ (x : Reg) (k : Key) (s : State), k.val = s.v[x].toNat % 16 →
    decodeWord (opX 0xE09E x) = .skp x ∧ decodeWord (opX 0xE0A1 x) = .sknp x ∧
    (∃ t, exec (.skp x) s = .next t ∧ onlyPc s t (if s.key[k] = true then s.pc + 4 else s.pc + 2)) ∧
    (∃ t, exec (.sknp x) s = .next t ∧ onlyPc s t (if s.key[k] = false then s.pc + 4 else s.pc + 2))

/-- R172: Fx0A; with no key down the step changes nothing at all, else the lowest pressed key goes to Vx. -/
def Obligations.WaitForKeyRepolls : Prop :=
  ∀ (x : Reg) (s : State),
    decodeWord (opX 0xF00A x) = .ldVxK x ∧
    ((∀ k : Key, s.key[k] = false) → exec (.ldVxK x) s = .next s) ∧
    ∀ k : Key, s.key[k] = true → (∀ j : Key, j < k → s.key[j] = false) →
      ∃ t, exec (.ldVxK x) s = .next t ∧ onlyReg s t x t.v[x] ∧ t.v[x].toNat = k.val

/-- R173, R174, R175: Fx07, Fx15, Fx18. -/
def Obligations.TimerMoves : Prop :=
  ∀ (x : Reg) (s : State),
    decodeWord (opX 0xF007 x) = .ldVxDt x ∧ decodeWord (opX 0xF015 x) = .ldDtVx x ∧
    decodeWord (opX 0xF018 x) = .ldStVx x ∧
    (∃ t, exec (.ldVxDt x) s = .next t ∧ onlyReg s t x s.dt) ∧
    (∃ t, exec (.ldDtVx x) s = .next t ∧ t.dt = s.v[x] ∧ sameBytes s t ∧
      t = { s with dt := t.dt, pc := s.pc + 2 }) ∧
    (∃ t, exec (.ldStVx x) s = .next t ∧ t.st = s.v[x] ∧ (t.soundOut = true ↔ s.v[x] ≠ 0) ∧ sameBytes s t ∧
      t = { s with st := t.st, pc := s.pc + 2 })

/-- R211 (in every state, halted or not: decision D10, log 19): both timers down by exactly 1, floored at 0, independently, nothing else touched; no
instruction decrements them, each being written by its own load alone. -/
def Obligations.TimerTickCountsBothDown : Prop :=
  (∀ s : State, ∃ t, applyEvent .timerTick s = .next t ∧
    (0 < s.dt.toNat → t.dt.toNat + 1 = s.dt.toNat) ∧ (s.dt.toNat = 0 → t.dt = s.dt) ∧
    (0 < s.st.toNat → t.st.toNat + 1 = s.st.toNat) ∧ (s.st.toNat = 0 → t.st = s.st) ∧
    sameBytes s t ∧ t = { s with dt := t.dt, st := t.st }) ∧
  ∀ (i : Instr) (s t : State), exec i s = .next t →
    ((∀ x, i ≠ .ldDtVx x) → t.dt = s.dt) ∧ ((∀ x, i ≠ .ldStVx x) → t.st = s.st)

/-- After k timer ticks each timer has lost exactly k, floored at 0 (95_test_vectors.md S9). So, in a core that is halted
or whose run has ended (decisions D10 and D24), under every schedule of step ticks, timer ticks and key events that is
fair to the timer both timers are 0 and silent from some event on; under a schedule of step ticks alone, unfair to it,
nothing ever changes. "A claim that needs a timer to reach 0 ... needs a fairness premise" (R213, decision D21). -/
def Obligations.TimersReachZeroAndStay : Prop :=
  (∀ (k : Nat) (s : State),
    (State.timerTick^[k] s).dt.toNat = s.dt.toNat - k ∧ (State.timerTick^[k] s).st.toNat = s.st.toNat - k ∧
    State.timerTick^[k] s = { s with dt := (State.timerTick^[k] s).dt, st := (State.timerTick^[k] s).st }) ∧
  (∀ (σ : Nat → Event) (s : State), fairToTimer σ → (∀ n : Nat, isInterleaved (σ n) = true) →
    s.fault ≠ .none ∨ s.endedNormally →
    ∃ k : Nat, ∀ m : Nat, k ≤ m → ∃ t, runEvents σ m s = .next t ∧ t.dt = 0 ∧ t.st = 0 ∧ t.soundOut = false) ∧
  ∀ (σ : Nat → Event) (s : State), (∀ n : Nat, ∃ r : Byte, σ n = .stepTick r) →
    s.fault ≠ .none ∨ s.endedNormally → ∀ k : Nat, runEvents σ k s = .next s

/-- R212: `SOUND = (ST != 0)`: after Fx18, after a timer tick that takes `ST` from 1 to 0, after reset. -/
def Obligations.SoundFollowsSoundTimer : Prop :=
  (∀ s : State, s.soundOut = true ↔ s.st.toNat ≠ 0) ∧
  (∀ (x : Reg) (s t : State), exec (.ldStVx x) s = .next t → (t.soundOut = true ↔ s.v[x].toNat ≠ 0)) ∧
  (∀ s t : State, applyEvent .timerTick s = .next t → s.st.toNat = 1 → s.soundOut = true ∧ t.soundOut = false) ∧
  ∀ s t : State, applyEvent .reset s = .next t → t.soundOut = false

/-- R214: a press sets and a release clears one flag (decision D27). -/
def Obligations.KeyEventsSetOneFlag : Prop :=
  ∀ (k : Key) (s : State),
    (∃ t, applyEvent (.keyPress k) s = .next t ∧ t.key[k] = true ∧
      (∀ j : Key, j ≠ k → t.key[j] = s.key[j]) ∧ (s.key[k] = true → t = s) ∧ t = { s with key := t.key }) ∧
    (∃ t, applyEvent (.keyRelease k) s = .next t ∧ t.key[k] = false ∧
      (∀ j : Key, j ≠ k → t.key[j] = s.key[j]) ∧ (s.key[k] = false → t = s) ∧ t = { s with key := t.key })

/-- The timer schedule and the keys share no state with an instruction that does not name them: the order of the two
does not matter (R8, R213; 20_memory.md R57). However many timer and key events come before it, the next step tick
finds the state they left alone; and under a schedule of the four interleaved events that is fair to the engine it does
come (R213, decision D21). -/
def Obligations.SchedulesShareNoState : Prop :=
  (∀ (i : Instr) (s t : State), exec i s = .next t →
    ((∀ x, i ≠ .ldVxDt x ∧ i ≠ .ldDtVx x ∧ i ≠ .ldStVx x) → exec i s.timerTick = .next t.timerTick) ∧
    ((∀ x, i ≠ .skp x ∧ i ≠ .sknp x ∧ i ≠ .ldVxK x) →
      ∀ (k : Key) (down : Bool), exec i (s.setKey k down) = .next (t.setKey k down))) ∧
  ∀ (σ : Nat → Event) (s : State), fairToEngine σ → (∀ n : Nat, isInterleaved (σ n) = true) →
    ∃ (n : Nat) (r : Byte) (u : State), σ n = .stepTick r ∧
      (∀ m : Nat, m < n → σ m = .timerTick ∨ isKeyEvent (σ m) = true) ∧
      runEvents σ n s = .next u ∧ u = { s with dt := u.dt, st := u.st, key := u.key } ∧
      runEvents σ (n + 1) s = applyEvent (.stepTick r) u

/-! ### Reset and load -/

/-- The reset values of 10_state.md R33, after `Reset` in any state: the inputs stay as they are (decision D17). -/
def Obligations.ResetGivesResetValues : Prop :=
  ∀ s : State, ∃ t, applyEvent .reset s = .next t ∧
    (∀ r : Reg, t.v[r] = 0) ∧ t.i = 0 ∧ t.pc = 0x0200 ∧ t.sp.val = 0 ∧ (∀ j : Fin 16, t.stk[j] = 0) ∧
    (∀ (k : Nat) (h : k < 80), t.readByte (0x050 + k) = s.cfg.font[k]) ∧
    (∀ a : Nat, a < 0x050 ∨ 0x09F < a → t.readByte a = 0) ∧
    (∀ (col : Fin 64) (row : Fin 32), t.displayOut col row = false) ∧ t.dt = 0 ∧ t.st = 0 ∧
    (∀ k : Key, t.key[k] = false) ∧ t.fault = .none ∧ t.cfg = s.cfg

/-- The state the model starts from has the reset values too (R33), under the spec's default configuration (log 2) and
with the model's own schedule of step ticks (logs 4, 23). -/
def Obligations.ResetStateHasResetValues : Prop :=
  let t := State.reset
  (∀ r : Reg, t.v[r] = 0) ∧ t.i = 0 ∧ t.pc = 0x0200 ∧ t.sp.val = 0 ∧ (∀ j : Fin 16, t.stk[j] = 0) ∧
    (∀ (k : Nat) (h : k < 80), t.readByte (0x050 + k) = t.cfg.font[k]) ∧
    (∀ a : Nat, a < 0x050 ∨ 0x09F < a → t.readByte a = 0) ∧
    (∀ (col : Fin 64) (row : Fin 32), t.displayOut col row = false) ∧ t.dt = 0 ∧ t.st = 0 ∧
    (∀ k : Key, t.key[k] = false) ∧ t.fault = .none ∧ t.cfg.qShiftSrc = .vy ∧ t.pending = [] ∧ t.later = .steps

/-- R241: everything `Reset` does, then the ROM bytes from 0x200 up, the rest of memory as reset leaves it. -/
def Obligations.LoadPlacesRom : Prop :=
  ∀ (rom : List Byte) (s : State), rom.length ≤ 3584 →
    ∃ t u, applyEvent (.load rom) s = .next t ∧ applyEvent .reset s = .next u ∧
      (∀ (k : Nat) (h : k < rom.length), t.readByte (0x200 + k) = rom[k]) ∧
      (∀ a : Nat, ¬(0x200 ≤ a ∧ a < 0x200 + rom.length) → t.readByte a = u.readByte a) ∧
      t = { u with mem := t.mem } ∧ (rom = [] → t = u)

/-- R242: a `Load` of more than 3584 bytes is refused whole (decision D17, log 16). -/
def Obligations.OversizeLoadIsRefused : Prop :=
  ∀ (rom : List Byte) (s : State), 3584 < rom.length → applyEvent (.load rom) s = .refused .romTooLong

/-! ### Fatal conditions -/

/-- R201 and R202: exactly the listed instructions raise, under exactly the listed conditions; a raise changes `FAULT`
alone and anything else leaves it as it was (decision D8). -/
def Obligations.ExactlyTheListedFaults : Prop :=
  ∀ (i : Instr) (s : State),
    (∀ f : FaultLatch, raisedBy i s = some f → exec i s = .next { s with fault := f }) ∧
    (raisedBy i s = none → ∃ t, exec i s = .next t ∧ t.fault = s.fault)

/-- R29: a latched fault is left only by `Reset` or `Load` (decision D9). -/
def Obligations.FaultLatchIsSticky : Prop :=
  ∀ (e : Event) (s t : State), s.fault ≠ .none → applyEvent e s = .next t →
    (e ≠ .reset → (∀ rom, e ≠ .load rom) → t.fault = s.fault) ∧
    (e = .reset ∨ (∃ rom, e = .load rom) → t.fault = .none)

/-! ### Whole-machine rules -/

/-- 10_state.md section 1, the column "written by", for every element of the state: what of it an instruction that is not
named there leaves alone. No instruction writes the keypad, the configuration or the schedule; `PC` is advanced by 2
unless the instruction moves it or raises, and stays if it raises; the latch is written by a fatal condition alone
(decision D8, log 5). -/
def Obligations.OnlyNamedInstructionsWrite : Prop :=
  ∀ (i : Instr) (s t : State), exec i s = .next t →
    t.key = s.key ∧ t.cfg = s.cfg ∧ t.pending = s.pending ∧ t.later = s.later ∧
    (writesSomeReg i s.cfg = false → t.v = s.v) ∧
    ((∀ nnn, i ≠ .ldI nnn) → (∀ x, i ≠ .addI x ∧ i ≠ .ldF x ∧ i ≠ .stRegs x ∧ i ≠ .ldRegs x) → t.i = s.i) ∧
    (movesPc i = false → raisedBy i s = none → t.pc = s.pc + 2) ∧ (raisedBy i s ≠ none → t.pc = s.pc) ∧
    ((∀ nnn, i ≠ .call nnn) → i ≠ .ret → t.sp = s.sp) ∧ ((∀ nnn, i ≠ .call nnn) → t.stk = s.stk) ∧
    ((∀ x, i ≠ .ldB x) → (∀ x, i ≠ .stRegs x) → t.mem = s.mem) ∧
    (i ≠ .cls → (∀ x y n, i ≠ .drw x y n) → t.disp = s.disp) ∧
    ((∀ x, i ≠ .ldDtVx x) → t.dt = s.dt) ∧ ((∀ x, i ≠ .ldStVx x) → t.st = s.st) ∧
    (raisedBy i s = none → t.fault = s.fault) ∧
    ((∀ x kk, i ≠ .rnd x kk) → t.rnd = s.rnd ∧ t.draws = s.draws)

/-- Registers: an instruction changes only its destination, and VF only if it defines the flag (R21); the flag it
leaves is 0 or 1, unless its result overwrites it (decision D7). -/
def Obligations.FlagWrittenOnlyByItsOpcodes : Prop :=
  ∀ (i : Instr) (s t : State), exec i s = .next t →
    (∀ r : Reg, writesReg i r = false → (r = Reg.vf → definesFlag i s.cfg = false) → t.v[r] = s.v[r]) ∧
    (definesFlag i s.cfg = true → flagLost i = false → raisedBy i s = none →
      t.v[Reg.vf] = 0 ∨ t.v[Reg.vf] = 1)

/-- A run that has ended normally stays there: a step tick leaves the whole state unchanged, and timer and key events
keep it ended (R251, decision D24). -/
def Obligations.SelfJumpEndsTheRun : Prop :=
  ∀ s : State, s.endedNormally →
    s.stepTick = .next s ∧ (∀ r : Byte, applyEvent (.stepTick r) s = .next s) ∧
    ∀ (e : Event) (t : State), e = .timerTick ∨ (∃ k, e = .keyPress k) ∨ (∃ k, e = .keyRelease k) →
      applyEvent e s = .next t → t.endedNormally ∧ t = { s with dt := t.dt, st := t.st, key := t.key }

/-! ### Invariants -/

/-- Every step, whichever event it takes, keeps memory in canonical form (log 14). -/
def Obligations.StepKeepsMemoryCanonical : Prop :=
  ∀ s t : State, s.memCanonical → step s = .next t → t.memCanonical

/-- R23: "the largest value any rule can give it is 0x10FE"; with it, every live stack entry stays at most 4096. -/
def Obligations.ProgramCounterNeverWraps : Prop :=
  ∀ s t : State, s.pcBounded → step s = .next t → t.pcBounded

/-- The reset state meets both invariants, under every configuration. -/
def Obligations.ResetMeetsInvariant : Prop := ∀ cfg : Config, (State.resetWith cfg).Inv

/-- R24: a stack slot at or above `SP` "is not observable by any instruction or output": two states that differ only
there answer alike, differ only there afterwards, and show the same outputs (decision D18). -/
def Obligations.DeadStackSlotsAreUnobservable : Prop :=
  ∀ s u : State, s.sameButDeadSlots u →
    (∀ r, step s = .refused r → step u = .refused r) ∧
    ∀ t, step s = .next t → ∃ w, step u = .next w ∧ t.sameButDeadSlots w ∧
      w.faultOut = t.faultOut ∧ w.soundOut = t.soundOut ∧
      ∀ (col : Fin 64) (row : Fin 32), w.displayOut col row = t.displayOut col row
end

