-- ==== Sys2Proof/Laws/State.lean ====
section
/-! SUPPORT. One lemma per field of State and per update: what the field is after it. A later proof cites these and
unfolds no record update. -/

namespace Sys2Proof.Machine

@[simp] theorem State.writeByte_v (s : State) (a : Nat) (w : Byte) : (s.writeByte a w).v = s.v := rfl
@[simp] theorem State.writeByte_i (s : State) (a : Nat) (w : Byte) : (s.writeByte a w).i = s.i := rfl
@[simp] theorem State.writeByte_pc (s : State) (a : Nat) (w : Byte) : (s.writeByte a w).pc = s.pc := rfl
@[simp] theorem State.writeByte_sp (s : State) (a : Nat) (w : Byte) : (s.writeByte a w).sp = s.sp := rfl
@[simp] theorem State.writeByte_stk (s : State) (a : Nat) (w : Byte) : (s.writeByte a w).stk = s.stk := rfl
@[simp] theorem State.writeByte_mem (s : State) (a : Nat) (w : Byte) : (s.writeByte a w).mem = s.mem.write s.cfg.font a w := rfl
@[simp] theorem State.writeByte_disp (s : State) (a : Nat) (w : Byte) : (s.writeByte a w).disp = s.disp := rfl
@[simp] theorem State.writeByte_dt (s : State) (a : Nat) (w : Byte) : (s.writeByte a w).dt = s.dt := rfl
@[simp] theorem State.writeByte_st (s : State) (a : Nat) (w : Byte) : (s.writeByte a w).st = s.st := rfl
@[simp] theorem State.writeByte_key (s : State) (a : Nat) (w : Byte) : (s.writeByte a w).key = s.key := rfl
@[simp] theorem State.writeByte_fault (s : State) (a : Nat) (w : Byte) : (s.writeByte a w).fault = s.fault := rfl
@[simp] theorem State.writeByte_cfg (s : State) (a : Nat) (w : Byte) : (s.writeByte a w).cfg = s.cfg := rfl
@[simp] theorem State.writeByte_rnd (s : State) (a : Nat) (w : Byte) : (s.writeByte a w).rnd = s.rnd := rfl
@[simp] theorem State.writeByte_draws (s : State) (a : Nat) (w : Byte) : (s.writeByte a w).draws = s.draws := rfl
@[simp] theorem State.writeByte_pending (s : State) (a : Nat) (w : Byte) : (s.writeByte a w).pending = s.pending := rfl
@[simp] theorem State.writeByte_later (s : State) (a : Nat) (w : Byte) : (s.writeByte a w).later = s.later := rfl

@[simp] theorem State.setReg_v (s : State) (x : Reg) (w : Byte) : (s.setReg x w).v = s.v.set x.val w x.isLt := rfl
@[simp] theorem State.setReg_i (s : State) (x : Reg) (w : Byte) : (s.setReg x w).i = s.i := rfl
@[simp] theorem State.setReg_pc (s : State) (x : Reg) (w : Byte) : (s.setReg x w).pc = s.pc := rfl
@[simp] theorem State.setReg_sp (s : State) (x : Reg) (w : Byte) : (s.setReg x w).sp = s.sp := rfl
@[simp] theorem State.setReg_stk (s : State) (x : Reg) (w : Byte) : (s.setReg x w).stk = s.stk := rfl
@[simp] theorem State.setReg_mem (s : State) (x : Reg) (w : Byte) : (s.setReg x w).mem = s.mem := rfl
@[simp] theorem State.setReg_disp (s : State) (x : Reg) (w : Byte) : (s.setReg x w).disp = s.disp := rfl
@[simp] theorem State.setReg_dt (s : State) (x : Reg) (w : Byte) : (s.setReg x w).dt = s.dt := rfl
@[simp] theorem State.setReg_st (s : State) (x : Reg) (w : Byte) : (s.setReg x w).st = s.st := rfl
@[simp] theorem State.setReg_key (s : State) (x : Reg) (w : Byte) : (s.setReg x w).key = s.key := rfl
@[simp] theorem State.setReg_fault (s : State) (x : Reg) (w : Byte) : (s.setReg x w).fault = s.fault := rfl
@[simp] theorem State.setReg_cfg (s : State) (x : Reg) (w : Byte) : (s.setReg x w).cfg = s.cfg := rfl
@[simp] theorem State.setReg_rnd (s : State) (x : Reg) (w : Byte) : (s.setReg x w).rnd = s.rnd := rfl
@[simp] theorem State.setReg_draws (s : State) (x : Reg) (w : Byte) : (s.setReg x w).draws = s.draws := rfl
@[simp] theorem State.setReg_pending (s : State) (x : Reg) (w : Byte) : (s.setReg x w).pending = s.pending := rfl
@[simp] theorem State.setReg_later (s : State) (x : Reg) (w : Byte) : (s.setReg x w).later = s.later := rfl

@[simp] theorem State.setVF_v (s : State) (b : Bool) : (s.setVF b).v = s.v.set 15 (if b then 1 else 0) := rfl
@[simp] theorem State.setVF_i (s : State) (b : Bool) : (s.setVF b).i = s.i := rfl
@[simp] theorem State.setVF_pc (s : State) (b : Bool) : (s.setVF b).pc = s.pc := rfl
@[simp] theorem State.setVF_sp (s : State) (b : Bool) : (s.setVF b).sp = s.sp := rfl
@[simp] theorem State.setVF_stk (s : State) (b : Bool) : (s.setVF b).stk = s.stk := rfl
@[simp] theorem State.setVF_mem (s : State) (b : Bool) : (s.setVF b).mem = s.mem := rfl
@[simp] theorem State.setVF_disp (s : State) (b : Bool) : (s.setVF b).disp = s.disp := rfl
@[simp] theorem State.setVF_dt (s : State) (b : Bool) : (s.setVF b).dt = s.dt := rfl
@[simp] theorem State.setVF_st (s : State) (b : Bool) : (s.setVF b).st = s.st := rfl
@[simp] theorem State.setVF_key (s : State) (b : Bool) : (s.setVF b).key = s.key := rfl
@[simp] theorem State.setVF_fault (s : State) (b : Bool) : (s.setVF b).fault = s.fault := rfl
@[simp] theorem State.setVF_cfg (s : State) (b : Bool) : (s.setVF b).cfg = s.cfg := rfl
@[simp] theorem State.setVF_rnd (s : State) (b : Bool) : (s.setVF b).rnd = s.rnd := rfl
@[simp] theorem State.setVF_draws (s : State) (b : Bool) : (s.setVF b).draws = s.draws := rfl
@[simp] theorem State.setVF_pending (s : State) (b : Bool) : (s.setVF b).pending = s.pending := rfl
@[simp] theorem State.setVF_later (s : State) (b : Bool) : (s.setVF b).later = s.later := rfl

@[simp] theorem State.setI_v (s : State) (w : Word) : (s.setI w).v = s.v := rfl
@[simp] theorem State.setI_i (s : State) (w : Word) : (s.setI w).i = w := rfl
@[simp] theorem State.setI_pc (s : State) (w : Word) : (s.setI w).pc = s.pc := rfl
@[simp] theorem State.setI_sp (s : State) (w : Word) : (s.setI w).sp = s.sp := rfl
@[simp] theorem State.setI_stk (s : State) (w : Word) : (s.setI w).stk = s.stk := rfl
@[simp] theorem State.setI_mem (s : State) (w : Word) : (s.setI w).mem = s.mem := rfl
@[simp] theorem State.setI_disp (s : State) (w : Word) : (s.setI w).disp = s.disp := rfl
@[simp] theorem State.setI_dt (s : State) (w : Word) : (s.setI w).dt = s.dt := rfl
@[simp] theorem State.setI_st (s : State) (w : Word) : (s.setI w).st = s.st := rfl
@[simp] theorem State.setI_key (s : State) (w : Word) : (s.setI w).key = s.key := rfl
@[simp] theorem State.setI_fault (s : State) (w : Word) : (s.setI w).fault = s.fault := rfl
@[simp] theorem State.setI_cfg (s : State) (w : Word) : (s.setI w).cfg = s.cfg := rfl
@[simp] theorem State.setI_rnd (s : State) (w : Word) : (s.setI w).rnd = s.rnd := rfl
@[simp] theorem State.setI_draws (s : State) (w : Word) : (s.setI w).draws = s.draws := rfl
@[simp] theorem State.setI_pending (s : State) (w : Word) : (s.setI w).pending = s.pending := rfl
@[simp] theorem State.setI_later (s : State) (w : Word) : (s.setI w).later = s.later := rfl

@[simp] theorem State.setPc_v (s : State) (w : Word) : (s.setPc w).v = s.v := rfl
@[simp] theorem State.setPc_i (s : State) (w : Word) : (s.setPc w).i = s.i := rfl
@[simp] theorem State.setPc_pc (s : State) (w : Word) : (s.setPc w).pc = w := rfl
@[simp] theorem State.setPc_sp (s : State) (w : Word) : (s.setPc w).sp = s.sp := rfl
@[simp] theorem State.setPc_stk (s : State) (w : Word) : (s.setPc w).stk = s.stk := rfl
@[simp] theorem State.setPc_mem (s : State) (w : Word) : (s.setPc w).mem = s.mem := rfl
@[simp] theorem State.setPc_disp (s : State) (w : Word) : (s.setPc w).disp = s.disp := rfl
@[simp] theorem State.setPc_dt (s : State) (w : Word) : (s.setPc w).dt = s.dt := rfl
@[simp] theorem State.setPc_st (s : State) (w : Word) : (s.setPc w).st = s.st := rfl
@[simp] theorem State.setPc_key (s : State) (w : Word) : (s.setPc w).key = s.key := rfl
@[simp] theorem State.setPc_fault (s : State) (w : Word) : (s.setPc w).fault = s.fault := rfl
@[simp] theorem State.setPc_cfg (s : State) (w : Word) : (s.setPc w).cfg = s.cfg := rfl
@[simp] theorem State.setPc_rnd (s : State) (w : Word) : (s.setPc w).rnd = s.rnd := rfl
@[simp] theorem State.setPc_draws (s : State) (w : Word) : (s.setPc w).draws = s.draws := rfl
@[simp] theorem State.setPc_pending (s : State) (w : Word) : (s.setPc w).pending = s.pending := rfl
@[simp] theorem State.setPc_later (s : State) (w : Word) : (s.setPc w).later = s.later := rfl

@[simp] theorem State.advance_v (s : State) : (s.advance).v = s.v := rfl
@[simp] theorem State.advance_i (s : State) : (s.advance).i = s.i := rfl
@[simp] theorem State.advance_pc (s : State) : (s.advance).pc = s.pc + 2 := rfl
@[simp] theorem State.advance_sp (s : State) : (s.advance).sp = s.sp := rfl
@[simp] theorem State.advance_stk (s : State) : (s.advance).stk = s.stk := rfl
@[simp] theorem State.advance_mem (s : State) : (s.advance).mem = s.mem := rfl
@[simp] theorem State.advance_disp (s : State) : (s.advance).disp = s.disp := rfl
@[simp] theorem State.advance_dt (s : State) : (s.advance).dt = s.dt := rfl
@[simp] theorem State.advance_st (s : State) : (s.advance).st = s.st := rfl
@[simp] theorem State.advance_key (s : State) : (s.advance).key = s.key := rfl
@[simp] theorem State.advance_fault (s : State) : (s.advance).fault = s.fault := rfl
@[simp] theorem State.advance_cfg (s : State) : (s.advance).cfg = s.cfg := rfl
@[simp] theorem State.advance_rnd (s : State) : (s.advance).rnd = s.rnd := rfl
@[simp] theorem State.advance_draws (s : State) : (s.advance).draws = s.draws := rfl
@[simp] theorem State.advance_pending (s : State) : (s.advance).pending = s.pending := rfl
@[simp] theorem State.advance_later (s : State) : (s.advance).later = s.later := rfl

@[simp] theorem State.skipIf_v (s : State) (c : Bool) : (s.skipIf c).v = s.v := by cases c <;> rfl
@[simp] theorem State.skipIf_i (s : State) (c : Bool) : (s.skipIf c).i = s.i := by cases c <;> rfl
@[simp] theorem State.skipIf_pc (s : State) (c : Bool) : (s.skipIf c).pc = if c then s.pc + 2 else s.pc := by cases c <;> rfl
@[simp] theorem State.skipIf_sp (s : State) (c : Bool) : (s.skipIf c).sp = s.sp := by cases c <;> rfl
@[simp] theorem State.skipIf_stk (s : State) (c : Bool) : (s.skipIf c).stk = s.stk := by cases c <;> rfl
@[simp] theorem State.skipIf_mem (s : State) (c : Bool) : (s.skipIf c).mem = s.mem := by cases c <;> rfl
@[simp] theorem State.skipIf_disp (s : State) (c : Bool) : (s.skipIf c).disp = s.disp := by cases c <;> rfl
@[simp] theorem State.skipIf_dt (s : State) (c : Bool) : (s.skipIf c).dt = s.dt := by cases c <;> rfl
@[simp] theorem State.skipIf_st (s : State) (c : Bool) : (s.skipIf c).st = s.st := by cases c <;> rfl
@[simp] theorem State.skipIf_key (s : State) (c : Bool) : (s.skipIf c).key = s.key := by cases c <;> rfl
@[simp] theorem State.skipIf_fault (s : State) (c : Bool) : (s.skipIf c).fault = s.fault := by cases c <;> rfl
@[simp] theorem State.skipIf_cfg (s : State) (c : Bool) : (s.skipIf c).cfg = s.cfg := by cases c <;> rfl
@[simp] theorem State.skipIf_rnd (s : State) (c : Bool) : (s.skipIf c).rnd = s.rnd := by cases c <;> rfl
@[simp] theorem State.skipIf_draws (s : State) (c : Bool) : (s.skipIf c).draws = s.draws := by cases c <;> rfl
@[simp] theorem State.skipIf_pending (s : State) (c : Bool) : (s.skipIf c).pending = s.pending := by cases c <;> rfl
@[simp] theorem State.skipIf_later (s : State) (c : Bool) : (s.skipIf c).later = s.later := by cases c <;> rfl

@[simp] theorem State.push_v (s : State) (w : Word) : (s.push w).v = s.v := rfl
@[simp] theorem State.push_i (s : State) (w : Word) : (s.push w).i = s.i := rfl
@[simp] theorem State.push_pc (s : State) (w : Word) : (s.push w).pc = s.pc := rfl
@[simp] theorem State.push_sp (s : State) (w : Word) : (s.push w).sp = ⟨min (s.sp.val + 1) 16, by omega⟩ := rfl
@[simp] theorem State.push_stk (s : State) (w : Word) : (s.push w).stk = s.stk.setIfInBounds s.sp.val w := rfl
@[simp] theorem State.push_mem (s : State) (w : Word) : (s.push w).mem = s.mem := rfl
@[simp] theorem State.push_disp (s : State) (w : Word) : (s.push w).disp = s.disp := rfl
@[simp] theorem State.push_dt (s : State) (w : Word) : (s.push w).dt = s.dt := rfl
@[simp] theorem State.push_st (s : State) (w : Word) : (s.push w).st = s.st := rfl
@[simp] theorem State.push_key (s : State) (w : Word) : (s.push w).key = s.key := rfl
@[simp] theorem State.push_fault (s : State) (w : Word) : (s.push w).fault = s.fault := rfl
@[simp] theorem State.push_cfg (s : State) (w : Word) : (s.push w).cfg = s.cfg := rfl
@[simp] theorem State.push_rnd (s : State) (w : Word) : (s.push w).rnd = s.rnd := rfl
@[simp] theorem State.push_draws (s : State) (w : Word) : (s.push w).draws = s.draws := rfl
@[simp] theorem State.push_pending (s : State) (w : Word) : (s.push w).pending = s.pending := rfl
@[simp] theorem State.push_later (s : State) (w : Word) : (s.push w).later = s.later := rfl

@[simp] theorem State.popPc_v (s : State) : s.popPc.v = s.v := rfl
@[simp] theorem State.popPc_i (s : State) : s.popPc.i = s.i := rfl
@[simp] theorem State.popPc_pc (s : State) : s.popPc.pc = s.stk[s.sp.val - 1]'(by omega) := rfl
@[simp] theorem State.popPc_sp (s : State) : s.popPc.sp = ⟨s.sp.val - 1, by omega⟩ := rfl
@[simp] theorem State.popPc_stk (s : State) : s.popPc.stk = s.stk := rfl
@[simp] theorem State.popPc_mem (s : State) : s.popPc.mem = s.mem := rfl
@[simp] theorem State.popPc_disp (s : State) : s.popPc.disp = s.disp := rfl
@[simp] theorem State.popPc_dt (s : State) : s.popPc.dt = s.dt := rfl
@[simp] theorem State.popPc_st (s : State) : s.popPc.st = s.st := rfl
@[simp] theorem State.popPc_key (s : State) : s.popPc.key = s.key := rfl
@[simp] theorem State.popPc_fault (s : State) : s.popPc.fault = s.fault := rfl
@[simp] theorem State.popPc_cfg (s : State) : s.popPc.cfg = s.cfg := rfl
@[simp] theorem State.popPc_rnd (s : State) : s.popPc.rnd = s.rnd := rfl
@[simp] theorem State.popPc_draws (s : State) : s.popPc.draws = s.draws := rfl
@[simp] theorem State.popPc_pending (s : State) : s.popPc.pending = s.pending := rfl
@[simp] theorem State.popPc_later (s : State) : s.popPc.later = s.later := rfl

@[simp] theorem State.refreshRnd_v (s : State) : (s.refreshRnd).v = s.v := rfl
@[simp] theorem State.refreshRnd_i (s : State) : (s.refreshRnd).i = s.i := rfl
@[simp] theorem State.refreshRnd_pc (s : State) : (s.refreshRnd).pc = s.pc := rfl
@[simp] theorem State.refreshRnd_sp (s : State) : (s.refreshRnd).sp = s.sp := rfl
@[simp] theorem State.refreshRnd_stk (s : State) : (s.refreshRnd).stk = s.stk := rfl
@[simp] theorem State.refreshRnd_mem (s : State) : (s.refreshRnd).mem = s.mem := rfl
@[simp] theorem State.refreshRnd_disp (s : State) : (s.refreshRnd).disp = s.disp := rfl
@[simp] theorem State.refreshRnd_dt (s : State) : (s.refreshRnd).dt = s.dt := rfl
@[simp] theorem State.refreshRnd_st (s : State) : (s.refreshRnd).st = s.st := rfl
@[simp] theorem State.refreshRnd_key (s : State) : (s.refreshRnd).key = s.key := rfl
@[simp] theorem State.refreshRnd_fault (s : State) : (s.refreshRnd).fault = s.fault := rfl
@[simp] theorem State.refreshRnd_cfg (s : State) : (s.refreshRnd).cfg = s.cfg := rfl
@[simp] theorem State.refreshRnd_rnd (s : State) : (s.refreshRnd).rnd = Config.freeRnd s.draws := rfl
@[simp] theorem State.refreshRnd_draws (s : State) : (s.refreshRnd).draws = s.draws + 1 := rfl
@[simp] theorem State.refreshRnd_pending (s : State) : (s.refreshRnd).pending = s.pending := rfl
@[simp] theorem State.refreshRnd_later (s : State) : (s.refreshRnd).later = s.later := rfl

@[simp] theorem State.timerTick_v (s : State) : (s.timerTick).v = s.v := rfl
@[simp] theorem State.timerTick_i (s : State) : (s.timerTick).i = s.i := rfl
@[simp] theorem State.timerTick_pc (s : State) : (s.timerTick).pc = s.pc := rfl
@[simp] theorem State.timerTick_sp (s : State) : (s.timerTick).sp = s.sp := rfl
@[simp] theorem State.timerTick_stk (s : State) : (s.timerTick).stk = s.stk := rfl
@[simp] theorem State.timerTick_mem (s : State) : (s.timerTick).mem = s.mem := rfl
@[simp] theorem State.timerTick_disp (s : State) : (s.timerTick).disp = s.disp := rfl
@[simp] theorem State.timerTick_dt (s : State) : (s.timerTick).dt = countDown s.dt := rfl
@[simp] theorem State.timerTick_st (s : State) : (s.timerTick).st = countDown s.st := rfl
@[simp] theorem State.timerTick_key (s : State) : (s.timerTick).key = s.key := rfl
@[simp] theorem State.timerTick_fault (s : State) : (s.timerTick).fault = s.fault := rfl
@[simp] theorem State.timerTick_cfg (s : State) : (s.timerTick).cfg = s.cfg := rfl
@[simp] theorem State.timerTick_rnd (s : State) : (s.timerTick).rnd = s.rnd := rfl
@[simp] theorem State.timerTick_draws (s : State) : (s.timerTick).draws = s.draws := rfl
@[simp] theorem State.timerTick_pending (s : State) : (s.timerTick).pending = s.pending := rfl
@[simp] theorem State.timerTick_later (s : State) : (s.timerTick).later = s.later := rfl

@[simp] theorem State.setKey_v (s : State) (k : Key) (down : Bool) : (s.setKey k down).v = s.v := rfl
@[simp] theorem State.setKey_i (s : State) (k : Key) (down : Bool) : (s.setKey k down).i = s.i := rfl
@[simp] theorem State.setKey_pc (s : State) (k : Key) (down : Bool) : (s.setKey k down).pc = s.pc := rfl
@[simp] theorem State.setKey_sp (s : State) (k : Key) (down : Bool) : (s.setKey k down).sp = s.sp := rfl
@[simp] theorem State.setKey_stk (s : State) (k : Key) (down : Bool) : (s.setKey k down).stk = s.stk := rfl
@[simp] theorem State.setKey_mem (s : State) (k : Key) (down : Bool) : (s.setKey k down).mem = s.mem := rfl
@[simp] theorem State.setKey_disp (s : State) (k : Key) (down : Bool) : (s.setKey k down).disp = s.disp := rfl
@[simp] theorem State.setKey_dt (s : State) (k : Key) (down : Bool) : (s.setKey k down).dt = s.dt := rfl
@[simp] theorem State.setKey_st (s : State) (k : Key) (down : Bool) : (s.setKey k down).st = s.st := rfl
@[simp] theorem State.setKey_key (s : State) (k : Key) (down : Bool) : (s.setKey k down).key = s.key.set k.val down k.isLt := rfl
@[simp] theorem State.setKey_fault (s : State) (k : Key) (down : Bool) : (s.setKey k down).fault = s.fault := rfl
@[simp] theorem State.setKey_cfg (s : State) (k : Key) (down : Bool) : (s.setKey k down).cfg = s.cfg := rfl
@[simp] theorem State.setKey_rnd (s : State) (k : Key) (down : Bool) : (s.setKey k down).rnd = s.rnd := rfl
@[simp] theorem State.setKey_draws (s : State) (k : Key) (down : Bool) : (s.setKey k down).draws = s.draws := rfl
@[simp] theorem State.setKey_pending (s : State) (k : Key) (down : Bool) : (s.setKey k down).pending = s.pending := rfl
@[simp] theorem State.setKey_later (s : State) (k : Key) (down : Bool) : (s.setKey k down).later = s.later := rfl

@[simp] theorem State.resetEvent_v (s : State) : (s.resetEvent).v = Vector.replicate 16 0 := rfl
@[simp] theorem State.resetEvent_i (s : State) : (s.resetEvent).i = 0 := rfl
@[simp] theorem State.resetEvent_pc (s : State) : (s.resetEvent).pc = 0x0200 := rfl
@[simp] theorem State.resetEvent_sp (s : State) : (s.resetEvent).sp = 0 := rfl
@[simp] theorem State.resetEvent_stk (s : State) : (s.resetEvent).stk = Vector.replicate 16 0 := rfl
@[simp] theorem State.resetEvent_mem (s : State) : (s.resetEvent).mem = [] := rfl
@[simp] theorem State.resetEvent_disp (s : State) : (s.resetEvent).disp = 0 := rfl
@[simp] theorem State.resetEvent_dt (s : State) : (s.resetEvent).dt = 0 := rfl
@[simp] theorem State.resetEvent_st (s : State) : (s.resetEvent).st = 0 := rfl
@[simp] theorem State.resetEvent_key (s : State) : (s.resetEvent).key = Vector.replicate 16 false := rfl
@[simp] theorem State.resetEvent_fault (s : State) : (s.resetEvent).fault = .none := rfl
@[simp] theorem State.resetEvent_cfg (s : State) : (s.resetEvent).cfg = s.cfg := rfl
@[simp] theorem State.resetEvent_rnd (s : State) : (s.resetEvent).rnd = s.rnd := rfl
@[simp] theorem State.resetEvent_draws (s : State) : (s.resetEvent).draws = s.draws := rfl
@[simp] theorem State.resetEvent_pending (s : State) : (s.resetEvent).pending = s.pending := rfl
@[simp] theorem State.resetEvent_later (s : State) : (s.resetEvent).later = s.later := rfl

/-! ### Several bytes: only memory changes -/

@[simp] theorem State.writeBytes_v (s : State) (a : Nat) (ws : List Byte) : (s.writeBytes a ws).v = s.v := by
  induction ws generalizing s a with
  | nil => rfl
  | cons w ws ih => exact ih (s.writeByte a w) (a + 1)

@[simp] theorem State.writeBytes_i (s : State) (a : Nat) (ws : List Byte) : (s.writeBytes a ws).i = s.i := by
  induction ws generalizing s a with
  | nil => rfl
  | cons w ws ih => exact ih (s.writeByte a w) (a + 1)

@[simp] theorem State.writeBytes_pc (s : State) (a : Nat) (ws : List Byte) : (s.writeBytes a ws).pc = s.pc := by
  induction ws generalizing s a with
  | nil => rfl
  | cons w ws ih => exact ih (s.writeByte a w) (a + 1)

@[simp] theorem State.writeBytes_sp (s : State) (a : Nat) (ws : List Byte) : (s.writeBytes a ws).sp = s.sp := by
  induction ws generalizing s a with
  | nil => rfl
  | cons w ws ih => exact ih (s.writeByte a w) (a + 1)

@[simp] theorem State.writeBytes_stk (s : State) (a : Nat) (ws : List Byte) : (s.writeBytes a ws).stk = s.stk := by
  induction ws generalizing s a with
  | nil => rfl
  | cons w ws ih => exact ih (s.writeByte a w) (a + 1)

@[simp] theorem State.writeBytes_disp (s : State) (a : Nat) (ws : List Byte) : (s.writeBytes a ws).disp = s.disp := by
  induction ws generalizing s a with
  | nil => rfl
  | cons w ws ih => exact ih (s.writeByte a w) (a + 1)

@[simp] theorem State.writeBytes_dt (s : State) (a : Nat) (ws : List Byte) : (s.writeBytes a ws).dt = s.dt := by
  induction ws generalizing s a with
  | nil => rfl
  | cons w ws ih => exact ih (s.writeByte a w) (a + 1)

@[simp] theorem State.writeBytes_st (s : State) (a : Nat) (ws : List Byte) : (s.writeBytes a ws).st = s.st := by
  induction ws generalizing s a with
  | nil => rfl
  | cons w ws ih => exact ih (s.writeByte a w) (a + 1)

@[simp] theorem State.writeBytes_key (s : State) (a : Nat) (ws : List Byte) : (s.writeBytes a ws).key = s.key := by
  induction ws generalizing s a with
  | nil => rfl
  | cons w ws ih => exact ih (s.writeByte a w) (a + 1)

@[simp] theorem State.writeBytes_fault (s : State) (a : Nat) (ws : List Byte) : (s.writeBytes a ws).fault = s.fault := by
  induction ws generalizing s a with
  | nil => rfl
  | cons w ws ih => exact ih (s.writeByte a w) (a + 1)

@[simp] theorem State.writeBytes_cfg (s : State) (a : Nat) (ws : List Byte) : (s.writeBytes a ws).cfg = s.cfg := by
  induction ws generalizing s a with
  | nil => rfl
  | cons w ws ih => exact ih (s.writeByte a w) (a + 1)

@[simp] theorem State.writeBytes_rnd (s : State) (a : Nat) (ws : List Byte) : (s.writeBytes a ws).rnd = s.rnd := by
  induction ws generalizing s a with
  | nil => rfl
  | cons w ws ih => exact ih (s.writeByte a w) (a + 1)

@[simp] theorem State.writeBytes_draws (s : State) (a : Nat) (ws : List Byte) : (s.writeBytes a ws).draws = s.draws := by
  induction ws generalizing s a with
  | nil => rfl
  | cons w ws ih => exact ih (s.writeByte a w) (a + 1)

@[simp] theorem State.writeBytes_pending (s : State) (a : Nat) (ws : List Byte) : (s.writeBytes a ws).pending = s.pending := by
  induction ws generalizing s a with
  | nil => rfl
  | cons w ws ih => exact ih (s.writeByte a w) (a + 1)

@[simp] theorem State.writeBytes_later (s : State) (a : Nat) (ws : List Byte) : (s.writeBytes a ws).later = s.later := by
  induction ws generalizing s a with
  | nil => rfl
  | cons w ws ih => exact ih (s.writeByte a w) (a + 1)

end Sys2Proof.Machine
end

