-- ==== Sys2Proof/Laws/Memory.lean ====
section
/-! SUPPORT. The laws of memory: a read after a write, the canonical form kept by every memory operation, equal
memories are equal data, and what a store of several bytes does to every address. -/

namespace Sys2Proof.Machine

variable {font : Vector Byte fontSize}

/-! ### Read after write -/

theorem Memory.read_insert_same (m : Memory) (a : Nat) (w : Byte) (h : ∀ c ∈ m, c.1 ≠ a) :
    Memory.read font (Memory.insert a w m) a = w := by
  induction m with
  | nil => simp [Memory.insert, Memory.read]
  | cons c rest ih =>
    obtain ⟨b, u⟩ := c
    have hb : a ≠ b := fun e => h (b, u) (by simp) e.symm
    unfold Memory.insert
    split
    · simp [Memory.read]
    · simpa [Memory.read, hb] using ih (fun c hc => h c (by simp [hc]))

theorem Memory.read_insert_other (m : Memory) (a b : Nat) (w : Byte) (h : b ≠ a) :
    Memory.read font (Memory.insert a w m) b = Memory.read font m b := by
  induction m with
  | nil => simp [Memory.insert, Memory.read, h]
  | cons c rest ih =>
    obtain ⟨d, u⟩ := c
    unfold Memory.insert
    split
    · simp [Memory.read, h]
    · simp [Memory.read, ih]

theorem Memory.read_unlisted (m : Memory) (a : Nat) (h : ∀ c ∈ m, c.1 ≠ a) :
    Memory.read font m a = Memory.initial font a := by
  induction m with
  | nil => rfl
  | cons c rest ih =>
    obtain ⟨d, u⟩ := c
    have hd : a ≠ d := fun e => h (d, u) (by simp) e.symm
    simpa [Memory.read, hd] using ih (fun c hc => h c (by simp [hc]))

theorem Memory.read_filter_other (m : Memory) (a b : Nat) (h : b ≠ a) :
    Memory.read font (m.filter (fun c => c.1 != a)) b = Memory.read font m b := by
  induction m with
  | nil => rfl
  | cons c rest ih =>
    obtain ⟨d, u⟩ := c
    by_cases hd : d = a
    · subst hd; simp [Memory.read, h, ih]
    · simp [Memory.read, hd, ih]

theorem Memory.filter_ne (m : Memory) (a : Nat) : ∀ c ∈ m.filter (fun c => c.1 != a), c.1 ≠ a := by
  intro c hc
  simpa using (List.mem_filter.mp hc).2

/-- A read after a write to the same address gives the byte written (20_memory.md R62). -/
@[simp] theorem Memory.read_write_same (m : Memory) (a : Nat) (w : Byte) :
    Memory.read font (Memory.write font m a w) a = w := by
  unfold Memory.write
  split
  · rw [Memory.read_unlisted _ _ (Memory.filter_ne m a)]; exact (‹w = _›).symm
  · exact Memory.read_insert_same _ _ _ (Memory.filter_ne m a)

/-- A write leaves every other address alone. -/
theorem Memory.read_write_other (m : Memory) (a b : Nat) (w : Byte) (h : b ≠ a) :
    Memory.read font (Memory.write font m a w) b = Memory.read font m b := by
  unfold Memory.write
  split
  · exact Memory.read_filter_other m a b h
  · rw [Memory.read_insert_other _ _ _ _ h, Memory.read_filter_other m a b h]

/-! ### The canonical form -/

theorem Memory.wf_nil : Memory.wf font [] := by simp [Memory.wf]

theorem Memory.wf_filter {m : Memory} (a : Nat) (h : Memory.wf font m) :
    Memory.wf font (m.filter (fun c => c.1 != a)) :=
  ⟨h.1.filter _, fun c hc => h.2 c (List.mem_filter.mp hc).1⟩

theorem Memory.mem_insert (m : Memory) (a : Nat) (w : Byte) (c : Host.Cell) :
    c ∈ Memory.insert a w m ↔ c = (a, w) ∨ c ∈ m := by
  induction m with
  | nil => simp [Memory.insert]
  | cons d rest ih =>
    obtain ⟨b, u⟩ := d
    unfold Memory.insert
    split <;> simp [ih]; tauto

theorem Memory.wf_insert {m : Memory} (a : Nat) (w : Byte) (hm : Memory.wf font m) (hne : ∀ c ∈ m, c.1 ≠ a)
    (ha : a < memSize) (hw : w ≠ Memory.initial font a) : Memory.wf font (Memory.insert a w m) := by
  refine ⟨?_, fun c hc => ?_⟩
  · obtain ⟨hp, -⟩ := hm
    induction m with
    | nil => simp [Memory.insert]
    | cons d rest ih =>
      obtain ⟨b, u⟩ := d
      rw [List.pairwise_cons] at hp
      unfold Memory.insert
      split
      · rename_i hlt
        refine List.pairwise_cons.mpr ⟨fun c hc => ?_, List.pairwise_cons.mpr hp⟩
        rcases List.mem_cons.mp hc with rfl | hc
        · exact hlt
        · exact hlt.trans (hp.1 c hc)
      · rename_i hge
        refine List.pairwise_cons.mpr ⟨fun c hc => ?_, ih (fun c hc => hne c (by simp [hc])) hp.2⟩
        rcases (Memory.mem_insert rest a w c).mp hc with rfl | hc
        · have : b ≠ a := hne (b, u) (by simp)
          exact Nat.lt_of_le_of_ne (Nat.le_of_not_lt hge) this
        · exact hp.1 c hc
  · rcases (Memory.mem_insert m a w c).mp hc with rfl | hc
    · exact ⟨ha, hw⟩
    · exact hm.2 c hc

/-- A write to an address that exists keeps the canonical form. -/
theorem Memory.wf_write {m : Memory} (a : Nat) (w : Byte) (hm : Memory.wf font m) (ha : a < memSize) :
    Memory.wf font (Memory.write font m a w) := by
  unfold Memory.write
  split
  · exact Memory.wf_filter a hm
  · exact Memory.wf_insert a w (Memory.wf_filter a hm) (Memory.filter_ne m a) ha ‹_›

/-- The cells below the first one of a sorted memory read as unlisted. -/
theorem Memory.read_below {m : Memory} {a : Nat} (h : ∀ c ∈ m, a < c.1) :
    Memory.read font m a = Memory.initial font a :=
  Memory.read_unlisted m a (fun c hc e => by have := h c hc; omega)

/-! ### Several bytes -/

@[simp] theorem State.readByte_setPc (s : State) (w : Word) : (s.setPc w).readByte = s.readByte := rfl

@[simp] theorem State.readByte_advance (s : State) : s.advance.readByte = s.readByte := rfl

theorem State.readByte_writeByte (s : State) (a b : Nat) (w : Byte) :
    (s.writeByte a w).readByte b = if b = a then w else s.readByte b := by
  by_cases h : b = a
  · subst h; simp [State.readByte]
  · simpa [State.readByte, h] using Memory.read_write_other s.mem a b w h

/-- What every address reads as after a store of several bytes: those stored where they were stored, every other one as
before. -/
theorem State.readByte_writeBytes (s : State) (a b : Nat) (ws : List Byte) :
    (s.writeBytes a ws).readByte b =
      if h : a ≤ b ∧ b < a + ws.length then ws[b - a]'(by omega) else s.readByte b := by
  induction ws generalizing s a with
  | nil => simp [State.writeBytes, show ¬(a ≤ b ∧ b < a) by omega]
  | cons w ws ih =>
    rw [State.writeBytes, ih, State.readByte_writeByte]
    simp only [List.length_cons]
    by_cases h1 : a + 1 ≤ b ∧ b < a + 1 + ws.length
    · have h2 : a ≤ b ∧ b < a + (ws.length + 1) := by omega
      have h3 : b - a = (b - (a + 1)) + 1 := by omega
      simp [h1, h2, h3]
    · by_cases h2 : b = a
      · subst h2; simp
      · have h3 : ¬(a ≤ b ∧ b < a + (ws.length + 1)) := by omega
        rw [dif_neg h1, if_neg h2, dif_neg h3]

/-- A store of bytes to addresses that exist keeps the canonical form. -/
theorem State.memCanonical_writeBytes (s : State) (a : Nat) (ws : List Byte) (hs : s.memCanonical)
    (h : a + ws.length ≤ memSize) : (s.writeBytes a ws).memCanonical := by
  induction ws generalizing s a with
  | nil => exact hs
  | cons w ws ih =>
    rw [List.length_cons] at h
    exact ih (s.writeByte a w) (a + 1) (Memory.wf_write a w hs (by omega)) (by omega)

@[simp] theorem State.length_readBytes (s : State) (a n : Nat) : (s.readBytes a n).length = n := by
  induction n generalizing a with
  | zero => rfl
  | succ n ih => simp [State.readBytes, ih]

@[simp] theorem State.getElem_readBytes (s : State) (a n k : Nat) (h : k < (s.readBytes a n).length) :
    (s.readBytes a n)[k] = s.readByte (a + k) := by
  induction n generalizing a k with
  | zero => simp [State.readBytes] at h
  | succ n ih =>
    cases k with
    | zero => rfl
    | succ k =>
      have := ih (a + 1) k (by simpa using h)
      simpa [State.readBytes, Nat.add_assoc, Nat.add_comm 1 k] using this

/-! ### The font -/

/-- In a memory that lists nothing, the font region reads as `FONT` (20_memory.md R51). -/
theorem Memory.initial_font (k : Nat) (h : k < fontSize) : Memory.initial font (fontBase + k) = font[k] := by
  have h' : fontBase ≤ fontBase + k ∧ fontBase + k < fontBase + fontSize := by omega
  unfold Memory.initial
  rw [dif_pos h']
  congr 1
  omega

/-- Outside the font region an unlisted address reads as 0 (R51). -/
theorem Memory.initial_zero (a : Nat) (h : ¬(fontBase ≤ a ∧ a < fontBase + fontSize)) :
    Memory.initial font a = 0 := by
  unfold Memory.initial
  rw [dif_neg h]

end Sys2Proof.Machine
end

