-- ==== Sys2Proof/Laws/Ops.lean ====
section
/-! SUPPORT. One lemma per shared operation that says once everything it can do: registers, the flag orders, the bounds
check, the register block, the lowest key, the display cell and the blit. -/

namespace Sys2Proof.Machine

/-! ### Registers -/

theorem State.getElem_setReg (s : State) (x r : Reg) (w : Byte) :
    (s.setReg x w).v[r] = if r = x then w else s.v[r] := by
  simp [State.setReg, Vector.getElem_set, Fin.ext_iff, eq_comm]

theorem State.getElem_setVF (s : State) (b : Bool) (r : Reg) :
    (s.setVF b).v[r] = if r = Reg.vf then (if b then 1 else 0) else s.v[r] :=
  State.getElem_setReg s Reg.vf r _

/-- Result first, flag second: VF ends as the flag whatever x is (41_alu.md R120). -/
theorem resultThenFlag_eq (s : State) (x : Reg) (result : Byte) (flag : Bool) :
    ∃ t, resultThenFlag s x result flag = .next t ∧ t.v[Reg.vf] = (if flag then 1 else 0) ∧
      (x ≠ Reg.vf → t.v[x] = result) ∧ (∀ r : Reg, r ≠ x → r ≠ Reg.vf → t.v[r] = s.v[r]) ∧
      t = { s with v := t.v, pc := s.pc + 2 } := by
  refine ⟨_, rfl, ?_, fun hx => ?_, fun r hr hf => ?_, rfl⟩
  · rw [State.getElem_setVF, if_pos rfl]
  · rw [State.getElem_setVF, if_neg hx, State.getElem_setReg, if_pos rfl]
  · rw [State.getElem_setVF, if_neg hf, State.getElem_setReg, if_neg hr]; rfl

/-- Flag first, result second: Vx ends as the result whatever x is, and VF is the flag when it is not x (R120). -/
theorem flagThenResult_eq (s : State) (x : Reg) (result : Byte) (flag : Bool) :
    ∃ t, flagThenResult s x result flag = .next t ∧ t.v[x] = result ∧
      (x ≠ Reg.vf → t.v[Reg.vf] = (if flag then 1 else 0)) ∧
      (∀ r : Reg, r ≠ x → r ≠ Reg.vf → t.v[r] = s.v[r]) ∧ t = { s with v := t.v, pc := s.pc + 2 } := by
  refine ⟨_, rfl, ?_, fun hx => ?_, fun r hr hf => ?_, rfl⟩
  · rw [State.getElem_setReg, if_pos rfl]
  · rw [State.getElem_setReg, if_neg hx.symm, State.getElem_setVF, if_pos rfl]
  · rw [State.getElem_setReg, if_neg hr, State.getElem_setVF, if_neg hf]; rfl

/-! ### Memory instructions -/

theorem spanOob_iff (a n : Nat) : spanOob a n = true ↔ 0 < n ∧ a + n - 1 > 4095 := by simp [spanOob]

/-- An access either raises, changing `FAULT` alone, or happens, and then every byte of it exists. -/
theorem accessOrRaise_cases (s t u : State) (n : Nat) (h : accessOrRaise s n t = .next u) :
    (spanOob s.i.toNat n = true ∧ u = { s with fault := .memoryOob }) ∨
      ((n = 0 ∨ s.i.toNat + n ≤ memSize) ∧ u = t) := by
  unfold accessOrRaise at h
  split at h
  · exact .inl ⟨‹_›, by simpa [State.raise] using h.symm⟩
  · rename_i hs
    rw [spanOob_iff] at hs
    exact .inr ⟨by simp only [memSize]; omega, by simpa using h.symm⟩

theorem accessOrRaise_next (s t : State) (n : Nat) (h : n = 0 ∨ s.i.toNat + n ≤ memSize) :
    accessOrRaise s n t = .next t := by
  have : ¬(spanOob s.i.toNat n = true) := by rw [spanOob_iff]; simp only [memSize] at h; omega
  simp [accessOrRaise, this]

/-- The register block after `n` loads: the first `n` from memory, the others as before. -/
theorem State.getElem_loadRegs (s : State) (a n r : Nat) (h : r < 16) :
    (s.loadRegs a n)[r] = if r < n then s.readByte (a + r) else s.v[r] := by
  induction n with
  | zero => simp [State.loadRegs]
  | succ n ih =>
    rw [State.loadRegs, Vector.getElem_setIfInBounds, ih]
    by_cases h1 : n = r
    · subst h1; simp
    · have : r < n + 1 ↔ r < n := by omega
      simp [h1, this]

theorem State.length_firstRegs (s : State) (n : Nat) (h : n ≤ 16) : (s.firstRegs n).length = n := by
  simp [State.firstRegs, h]

theorem State.getElem_firstRegs (s : State) (n k : Nat) (h : k < (s.firstRegs n).length) (hk : k < 16) :
    (s.firstRegs n)[k] = s.v[k] := by
  simp [State.firstRegs]

/-! ### Keys -/

/-- No key is down, or the answer is a pressed key below which none is down (44_keypad_timers.md R172). -/
theorem State.lowestKey_spec (s : State) :
    (s.lowestKey = none ∧ ∀ k : Key, s.key[k] = false) ∨
      ∃ k : Key, s.lowestKey = some k ∧ s.key[k] = true ∧ ∀ j : Key, j < k → s.key[j] = false := by
  unfold State.lowestKey
  cases h : (List.finRange 16).find? (fun k => s.key[k]) with
  | none =>
    refine .inl ⟨rfl, fun k => ?_⟩
    simpa using List.find?_eq_none.mp h k (List.mem_finRange k)
  | some k =>
    obtain ⟨hk, as, bs, hab, hbefore⟩ := List.find?_eq_some_iff_append.mp h
    refine .inr ⟨k, rfl, hk, fun j hj => ?_⟩
    have hsorted : (List.finRange 16).Pairwise (· < ·) := by decide
    have hmem : j ∈ as := by
      have hj' : j ∈ as ++ k :: bs := hab ▸ List.mem_finRange j
      rw [hab, List.pairwise_append, List.pairwise_cons] at hsorted
      rcases List.mem_append.mp hj' with h1 | h1
      · exact h1
      · rcases List.mem_cons.mp h1 with rfl | h2
        · exact absurd hj (lt_irrefl _)
        · exact absurd (hsorted.2.1.1 j h2) (not_lt.mpr hj.le)
    simpa using hbefore j hmem

/-! ### The display -/

@[simp] theorem Display.cell_flip (d : Display) (j k : Nat) (h : j < 2048) :
    (d.flip j).cell k = (d.cell k ^^ decide (k = j)) := by
  unfold Display.flip Display.cell
  rw [BitVec.getLsbD_xor, BitVec.getLsbD_shiftLeft]
  congr 1
  rw [BitVec.getLsbD_one]
  by_cases hk : k = j
  · subst hk; simp [h]
  · by_cases h1 : k < j
    · simp [h1, hk]
    · have : ¬(k - j = 0) := by omega
      simp [this, hk]

theorem cellIndex_lt {col row : Nat} (hc : col < 64) (hr : row < 32) : cellIndex col row < 2048 := by
  simp only [cellIndex, dispW]; omega

theorem cellIndex_inj {c r c' r' : Nat} (hc : c < 64) (hc' : c' < 64) (h : cellIndex c r = cellIndex c' r') :
    c = c' ∧ r = r' := by
  simp only [cellIndex, dispW] at h; omega

/-- A set, unclipped pixel flips its own cell and no other. -/
theorem drawPixel_cell (px py : Nat) (bit : Bool) (acc : Display × Bool) (col row : Nat) (hc : col < 64)
    (hr : row < 32) :
    (drawPixel px py bit acc).1.cell (cellIndex col row) =
      (acc.1.cell (cellIndex col row) ^^ (bit && decide (col = px ∧ row = py))) := by
  unfold drawPixel
  split
  · rename_i h
    simp only [Bool.and_eq_true, decide_eq_true_eq] at h
    rw [Display.cell_flip _ _ _ (cellIndex_lt h.1.1 h.1.2), h.2, Bool.true_and]
    congr 1
    rw [decide_eq_decide]
    exact ⟨fun e => cellIndex_inj hc h.1.1 e, fun ⟨e1, e2⟩ => by rw [e1, e2]⟩
  · rename_i h
    simp only [Bool.and_eq_true, decide_eq_true_eq, dispW, dispH] at h
    have : (bit && decide (col = px ∧ row = py)) = false := by
      cases bit
      · rfl
      · simp only [Bool.true_and, decide_eq_false_iff_not]
        rintro ⟨rfl, rfl⟩
        exact h ⟨⟨hc, hr⟩, rfl⟩
    rw [this, Bool.xor_false]

/-- The collision after a pixel: the one before, or a set cell under a set, unclipped pixel. -/
theorem drawPixel_collision (px py : Nat) (bit : Bool) (acc : Display × Bool) :
    (drawPixel px py bit acc).2 =
      (acc.2 || (bit && decide (px < 64 ∧ py < 32) && acc.1.cell (cellIndex px py))) := by
  unfold drawPixel collisionFlag
  by_cases hx : px < 64 <;> by_cases hy : py < 32 <;> cases bit <;> simp [dispW, dispH, hx, hy]

end Sys2Proof.Machine
end

