-- ==== Sys2Proof/Laws/Blit.lean ====
section
/-! SUPPORT. What the blit does, cell by cell, and when it collides (43_display.md R161): the two loops are unrolled
here once, by induction on the pixels done and on the rows. -/

namespace Sys2Proof.Machine

/-- The first `n` pixels of a sprite row. -/
def drawPixels (x0 py : Nat) (row : Byte) (acc : Display × Bool) (n : Nat) : Display × Bool :=
  (List.range n).foldl (fun acc c => drawPixel (x0 + c) py (row.getLsbD (7 - c)) acc) acc

theorem drawRow_eq_drawPixels (x0 py : Nat) (row : Byte) (acc : Display × Bool) :
    drawRow x0 py row acc = drawPixels x0 py row acc 8 := rfl

theorem drawPixels_succ (x0 py : Nat) (row : Byte) (acc : Display × Bool) (n : Nat) :
    drawPixels x0 py row acc (n + 1) = drawPixel (x0 + n) py (row.getLsbD (7 - n)) (drawPixels x0 py row acc n) := by
  simp [drawPixels, List.range_succ]

theorem drawPixels_cell (x0 py : Nat) (sprite : Byte) (acc : Display × Bool) (n col row : Nat) (hc : col < 64)
    (hr : row < 32) :
    (drawPixels x0 py sprite acc n).1.cell (cellIndex col row) =
      (acc.1.cell (cellIndex col row) ^^
        (decide (x0 ≤ col ∧ col < x0 + n ∧ row = py) && sprite.getLsbD (7 - (col - x0)))) := by
  induction n with
  | zero =>
    have : ¬(x0 ≤ col ∧ col < x0 + 0 ∧ row = py) := by omega
    simp only [this, decide_false, Bool.false_and, Bool.xor_false]; rfl
  | succ n ih =>
    rw [drawPixels_succ, drawPixel_cell _ _ _ _ _ _ hc hr, ih]
    by_cases h : col = x0 + n ∧ row = py
    · obtain ⟨rfl, rfl⟩ := h
      simp
    · have h1 : (x0 ≤ col ∧ col < x0 + (n + 1) ∧ row = py) ↔ (x0 ≤ col ∧ col < x0 + n ∧ row = py) := by omega
      simp [h, h1]

/-- A row flips exactly the cells under its set pixels. -/
theorem drawRow_cell (x0 py : Nat) (sprite : Byte) (acc : Display × Bool) (col row : Nat) (hc : col < 64)
    (hr : row < 32) :
    (drawRow x0 py sprite acc).1.cell (cellIndex col row) =
      (acc.1.cell (cellIndex col row) ^^
        (decide (x0 ≤ col ∧ col < x0 + 8 ∧ row = py) && sprite.getLsbD (7 - (col - x0)))) :=
  drawPixels_cell x0 py sprite acc 8 col row hc hr

theorem drawPixels_collision (x0 py : Nat) (sprite : Byte) (acc : Display × Bool) (n : Nat) :
    (drawPixels x0 py sprite acc n).2 = true ↔
      acc.2 = true ∨ ∃ c < n, sprite.getLsbD (7 - c) = true ∧ x0 + c < 64 ∧ py < 32 ∧
        acc.1.cell (cellIndex (x0 + c) py) = true := by
  induction n with
  | zero => simp [drawPixels]
  | succ n ih =>
    rw [drawPixels_succ, drawPixel_collision, Bool.or_eq_true, ih]
    have hcell : x0 + n < 64 → py < 32 →
        (drawPixels x0 py sprite acc n).1.cell (cellIndex (x0 + n) py) = acc.1.cell (cellIndex (x0 + n) py) := by
      intro h1 h2
      rw [drawPixels_cell _ _ _ _ _ _ _ h1 h2]
      simp
    constructor
    · rintro ((h | ⟨c, hc, h⟩) | h)
      · exact .inl h
      · exact .inr ⟨c, by omega, h⟩
      · simp only [Bool.and_eq_true, decide_eq_true_eq] at h
        exact .inr ⟨n, by omega, h.1.1, h.1.2.1, h.1.2.2, hcell h.1.2.1 h.1.2.2 ▸ h.2⟩
    · rintro (h | ⟨c, hc, hb, h1, h2, h3⟩)
      · exact .inl (.inl h)
      · rcases Nat.lt_succ_iff_lt_or_eq.mp hc with hc | rfl
        · exact .inl (.inr ⟨c, hc, hb, h1, h2, h3⟩)
        · refine .inr ?_
          rw [hcell h1 h2]
          simp [hb, h1, h2, h3]

theorem drawRow_collision (x0 py : Nat) (sprite : Byte) (acc : Display × Bool) :
    (drawRow x0 py sprite acc).2 = true ↔
      acc.2 = true ∨ ∃ c < 8, sprite.getLsbD (7 - c) = true ∧ x0 + c < 64 ∧ py < 32 ∧
        acc.1.cell (cellIndex (x0 + c) py) = true :=
  drawPixels_collision x0 py sprite acc 8

/-- The rows together flip exactly the cells under their set pixels. -/
theorem drawRows_cell (x0 py : Nat) (rows : List Byte) (acc : Display × Bool) (col row : Nat) (hc : col < 64)
    (hr : row < 32) :
    (drawRows x0 py rows acc).1.cell (cellIndex col row) =
      (acc.1.cell (cellIndex col row) ^^
        (decide (x0 ≤ col ∧ col < x0 + 8 ∧ py ≤ row ∧ row < py + rows.length) &&
          (rows.getD (row - py) 0).getLsbD (7 - (col - x0)))) := by
  induction rows generalizing py acc with
  | nil =>
    have : ¬(x0 ≤ col ∧ col < x0 + 8 ∧ py ≤ row ∧ row < py + ([] : List Byte).length) := by simp
    simp only [this, decide_false, Bool.false_and, Bool.xor_false]; rfl
  | cons r rows ih =>
    rw [drawRows, ih, drawRow_cell _ _ _ _ _ _ hc hr]
    simp only [List.length_cons]
    by_cases h : row = py
    · subst h
      have h1 : ¬(x0 ≤ col ∧ col < x0 + 8 ∧ row + 1 ≤ row ∧ row < row + 1 + rows.length) := by omega
      have h2 : (x0 ≤ col ∧ col < x0 + 8 ∧ row ≤ row ∧ row < row + (rows.length + 1)) ↔
          (x0 ≤ col ∧ col < x0 + 8 ∧ row = row) := by omega
      simp only [h1, h2, decide_false, Bool.false_and, Bool.xor_false, Nat.sub_self, List.getD_cons_zero]
    · have h1 : ¬(x0 ≤ col ∧ col < x0 + 8 ∧ row = py) := by omega
      by_cases h2 : py + 1 ≤ row
      · have h3 : row - py = (row - (py + 1)) + 1 := by omega
        have h4 : (x0 ≤ col ∧ col < x0 + 8 ∧ py ≤ row ∧ row < py + (rows.length + 1)) ↔
            (x0 ≤ col ∧ col < x0 + 8 ∧ py + 1 ≤ row ∧ row < py + 1 + rows.length) := by omega
        rw [h3]
        simp only [h1, h4, decide_false, Bool.false_and, Bool.xor_false, List.getD_cons_succ]
      · have h3 : ¬(x0 ≤ col ∧ col < x0 + 8 ∧ py + 1 ≤ row ∧ row < py + 1 + rows.length) := by omega
        have h4 : ¬(x0 ≤ col ∧ col < x0 + 8 ∧ py ≤ row ∧ row < py + (rows.length + 1)) := by omega
        simp only [h1, h3, h4, decide_false, Bool.false_and, Bool.xor_false]

theorem drawRows_collision (x0 py : Nat) (rows : List Byte) (acc : Display × Bool) :
    (drawRows x0 py rows acc).2 = true ↔
      acc.2 = true ∨ ∃ k < rows.length, ∃ c < 8, (rows.getD k 0).getLsbD (7 - c) = true ∧ x0 + c < 64 ∧
        py + k < 32 ∧ acc.1.cell (cellIndex (x0 + c) (py + k)) = true := by
  induction rows generalizing py acc with
  | nil => simp [drawRows]
  | cons r rows ih =>
    rw [drawRows, ih, drawRow_collision]
    have hcell : ∀ c k : Nat, x0 + c < 64 → py + (k + 1) < 32 →
        (drawRow x0 py r acc).1.cell (cellIndex (x0 + c) (py + (k + 1))) =
          acc.1.cell (cellIndex (x0 + c) (py + (k + 1))) := by
      intro c k h1 h2
      rw [drawRow_cell _ _ _ _ _ _ h1 h2]
      simp
    constructor
    · rintro ((h | ⟨c, hc, hb, h1, h2, h3⟩) | ⟨k, hk, c, hc, hb, h1, h2, h3⟩)
      · exact .inl h
      · exact .inr ⟨0, by simp, c, hc, by simpa using hb, h1, h2, h3⟩
      · rw [Nat.add_assoc, Nat.add_comm 1 k] at h2 h3
        exact .inr ⟨k + 1, by simpa using hk, c, hc, by simpa using hb, h1, h2, hcell c k h1 h2 ▸ h3⟩
    · rintro (h | ⟨k, hk, c, hc, hb, h1, h2, h3⟩)
      · exact .inl (.inl h)
      · cases k with
        | zero => exact .inl (.inr ⟨c, hc, by simpa using hb, h1, h2, h3⟩)
        | succ k =>
          refine .inr ⟨k, by simpa using hk, c, hc, by simpa using hb, h1, ?_⟩
          rw [Nat.add_assoc, Nat.add_comm 1 k]
          exact ⟨h2, by rw [hcell c k h1 h2]; exact h3⟩

/-- The blit, cell by cell: exactly the cells under a set sprite pixel are flipped. -/
theorem blit_cell (s : State) (d : Display) (x0 y0 a n col row : Nat) (hc : col < 64) (hr : row < 32) :
    (blit d x0 y0 (s.readBytes a n)).1.cell (cellIndex col row) =
      (d.cell (cellIndex col row) ^^ s.spritePixel a n x0 y0 col row) := by
  unfold blit
  rw [drawRows_cell _ _ _ _ _ _ hc hr, State.length_readBytes]
  congr 1
  unfold State.spritePixel
  by_cases h : x0 ≤ col ∧ col < x0 + 8 ∧ y0 ≤ row ∧ row < y0 + n
  · have hk : row - y0 < (s.readBytes a n).length := by rw [State.length_readBytes]; omega
    rw [List.getD_eq_getElem _ _ hk, State.getElem_readBytes]
  · simp [h]

/-- The blit collides exactly when a set cell of the screen lies under a set sprite pixel. -/
theorem blit_collision (s : State) (d : Display) (x0 y0 a n : Nat) :
    (blit d x0 y0 (s.readBytes a n)).2 = true ↔
      ∃ (col : Fin 64) (row : Fin 32), d.cell (cellIndex col.val row.val) = true ∧
        s.spritePixel a n x0 y0 col.val row.val = true := by
  unfold blit
  rw [drawRows_collision, State.length_readBytes]
  have hget : ∀ k < n, (s.readBytes a n).getD k 0 = s.readByte (a + k) := by
    intro k hk
    have hk' : k < (s.readBytes a n).length := by rw [State.length_readBytes]; exact hk
    rw [List.getD_eq_getElem _ _ hk', State.getElem_readBytes]
  constructor
  · rintro (h | ⟨k, hk, c, hc, hb, h1, h2, h3⟩)
    · simp at h
    · rw [hget k hk] at hb
      exact ⟨⟨x0 + c, h1⟩, ⟨y0 + k, h2⟩, h3, by simp [State.spritePixel, hb, hk, hc]⟩
  · rintro ⟨col, row, h1, h2⟩
    simp only [State.spritePixel, Bool.and_eq_true, decide_eq_true_eq] at h2
    obtain ⟨⟨ha, hb, hc, hd⟩, he⟩ := h2
    have e1 : x0 + (col.val - x0) = col.val := by omega
    have e2 : y0 + (row.val - y0) = row.val := by omega
    refine .inr ⟨row.val - y0, by omega, col.val - x0, by omega, ?_, by omega, by omega, by rw [e1, e2]; exact h1⟩
    rw [hget _ (by omega)]
    exact he

/-- Displays that agree on every column and row are equal (10_state.md R26: the cells are all there is). -/
theorem Display.ext_cell {d e : Display}
    (h : ∀ (col : Fin 64) (row : Fin 32), d.cell (cellIndex col.val row.val) = e.cell (cellIndex col.val row.val)) :
    d = e := by
  refine BitVec.eq_of_getLsbD_eq fun i hi => ?_
  have := h ⟨i % 64, by omega⟩ ⟨i / 64, by omega⟩
  simp only [cellIndex, dispW] at this
  rw [show 64 * (i / 64) + i % 64 = i by omega] at this
  exact this

end Sys2Proof.Machine
end

