-- ==== Sys2Proof/Laws/Encoding.lean ====
section
/-! SUPPORT. The six fields of an encoded word, format by format (30_encoding.md R71, R72), and the bytes an opcode is
stored as. -/

namespace Sys2Proof

@[simp] theorem nibbleVal_nibbleBits (k : Fin 16) : nibbleVal (nibbleBits k) = k := by
  revert k; decide

@[simp] theorem nibbleBits_nibbleVal (b : BitVec 4) : nibbleBits (nibbleVal b) = b := by
  revert b; decide

/-! Bits of a concatenation, for the widths of the encoding. -/

@[simp] theorem getLsbD_cat_4_12 (u : BitVec 4) (w : BitVec 12) (i : Nat) :
    BitVec.getLsbD (w := 16) (u ++ w) i = if i < 12 then w.getLsbD i else u.getLsbD (i - 12) :=
  BitVec.getLsbD_append

@[simp] theorem getLsbD_cat_4_4 (u : BitVec 4) (w : BitVec 4) (i : Nat) :
    BitVec.getLsbD (w := 8) (u ++ w) i = if i < 4 then w.getLsbD i else u.getLsbD (i - 4) :=
  BitVec.getLsbD_append

@[simp] theorem getLsbD_cat_8_8 (u : BitVec 8) (w : BitVec 8) (i : Nat) :
    BitVec.getLsbD (w := 16) (u ++ w) i = if i < 8 then w.getLsbD i else u.getLsbD (i - 8) :=
  BitVec.getLsbD_append

@[simp] theorem getLsbD_cat_8_4 (u : BitVec 8) (w : BitVec 4) (i : Nat) :
    BitVec.getLsbD (w := 12) (u ++ w) i = if i < 4 then w.getLsbD i else u.getLsbD (i - 4) :=
  BitVec.getLsbD_append

@[simp] theorem getLsbD_cat_4_8 (u : BitVec 4) (w : BitVec 8) (i : Nat) :
    BitVec.getLsbD (w := 12) (u ++ w) i = if i < 8 then w.getLsbD i else u.getLsbD (i - 8) :=
  BitVec.getLsbD_append

/-- Fields of a word of format `NNN`. -/
theorem fields_encNNN (c : BitVec 4) (nnn : BitVec 12) :
    fields (encNNN c nnn) = ⟨c, nnn.extractLsb' 8 4, nnn.extractLsb' 4 4, nnn.extractLsb' 0 4,
      nnn.extractLsb' 0 8, nnn⟩ := by
  unfold fields encNNN
  congr 1 <;> refine BitVec.eq_of_getLsbD_eq fun i hi => ?_ <;> interval_cases i <;>
    simp [-BitVec.getLsbD_eq_getElem]

/-- Fields of a word of format `XKK`. -/
theorem fields_encXKK (c : BitVec 4) (x : Reg) (kk : Byte) :
    fields (encXKK c x kk) = ⟨c, nibbleBits x, kk.extractLsb' 4 4, kk.extractLsb' 0 4, kk, nibbleBits x ++ kk⟩ := by
  unfold fields encXKK
  congr 1 <;> refine BitVec.eq_of_getLsbD_eq fun i hi => ?_ <;> interval_cases i <;>
    simp [-BitVec.getLsbD_eq_getElem]

/-- Fields of a word of formats `XY` and `XYN`. -/
theorem fields_encXYN (c : BitVec 4) (x y : Reg) (n : BitVec 4) :
    fields (encXYN c x y n) = ⟨c, nibbleBits x, nibbleBits y, n, nibbleBits y ++ n,
      nibbleBits x ++ (nibbleBits y ++ n : BitVec 8)⟩ := by
  unfold fields encXYN
  congr 1 <;> refine BitVec.eq_of_getLsbD_eq fun i hi => ?_ <;> interval_cases i <;>
    simp [-BitVec.getLsbD_eq_getElem]

/-- An opcode is its class nibble above its twelve low bits. -/
theorem encNNN_fields (op : Word) : encNNN (fields op).cls (fields op).nnn = op := by
  unfold fields encNNN
  refine BitVec.eq_of_getLsbD_eq fun i hi => ?_
  interval_cases i <;> simp [-BitVec.getLsbD_eq_getElem]

/-- An opcode is its class nibble, x and kk. -/
theorem encXKK_fields (op : Word) : encXKK (fields op).cls (nibbleVal (fields op).x) (fields op).kk = op := by
  unfold fields encXKK
  rw [nibbleBits_nibbleVal]
  refine BitVec.eq_of_getLsbD_eq fun i hi => ?_
  interval_cases i <;> simp [-BitVec.getLsbD_eq_getElem]

/-- An opcode is its class nibble, x, y and n. -/
theorem encXYN_fields (op : Word) :
    encXYN (fields op).cls (nibbleVal (fields op).x) (nibbleVal (fields op).y) (fields op).n = op := by
  unfold fields encXYN
  rw [nibbleBits_nibbleVal, nibbleBits_nibbleVal]
  refine BitVec.eq_of_getLsbD_eq fun i hi => ?_
  interval_cases i <;> simp [-BitVec.getLsbD_eq_getElem]

/-- The two stored bytes combine to the opcode (20_memory.md R54). -/
@[simp] theorem combine_opcodeBytes (op : Word) : combine (highByte op) (lowByte op) = op := by
  unfold combine highByte lowByte
  refine BitVec.eq_of_getLsbD_eq fun i hi => ?_
  interval_cases i <;> simp [-BitVec.getLsbD_eq_getElem]

/-- Decoding the stored bytes of an opcode decodes the opcode and leaves the rest. -/
theorem decode_opcodeBytes (op : Word) (rest : List Byte) :
    decode (opcodeBytes op ++ rest) = .ok (decodeWord op, rest) := by
  show Except.ok (decodeWord (combine (highByte op) (lowByte op)), rest) = _
  rw [combine_opcodeBytes]

end Sys2Proof
end

