-- ==== Sys2Proof/Laws/Step.lean ====
section
/-! SUPPORT. What one step can do: an inversion lemma for the engine, for the events and for the step, and where
withFetchWord places its word. -/

namespace Sys2Proof.Machine

/-- A timer loses exactly 1, floored at 0 (60_exceptions.md R211). -/
theorem toNat_countDown (w : Byte) : (countDown w).toNat = w.toNat - 1 := by
  unfold countDown
  split <;> bv_omega

theorem State.getElem_setKey (s : State) (k j : Key) (down : Bool) :
    (s.setKey k down).key[j] = if j = k then down else s.key[j] := by
  simp [State.setKey, Vector.getElem_set, Fin.ext_iff, eq_comm]

/-- A step tick leaves a halted core alone, or faults at the fetch, or runs the decoded instruction
(40_flow.md R100). -/
theorem State.stepTick_cases {s t : State} (h : s.stepTick = .next t) :
    (s.fault ≠ .none ∧ t = s) ∨
      (s.fault = .none ∧ s.pc.toNat > 4094 ∧ t = { s with fault := .memoryOob }) ∨
      (s.fault = .none ∧ s.pc.toNat ≤ 4094 ∧ exec (decodeWord s.fetchOp) s = .next t) := by
  unfold State.stepTick at h
  split at h
  · exact .inl ⟨by simpa [State.halted] using ‹s.halted = true›, by simpa using h.symm⟩
  · rename_i hh
    have hf : s.fault = .none := by simpa [State.halted] using hh
    split at h
    · exact .inr (.inl ⟨hf, by simpa [State.fetchOob] using ‹s.fetchOob = true›,
        by simpa [State.raise] using h.symm⟩)
    · rename_i ho
      exact .inr (.inr ⟨hf, by simpa [State.fetchOob] using ho, h⟩)

theorem State.stepTick_halted {s : State} (h : s.fault ≠ .none) : s.stepTick = .next s := by
  simp [State.stepTick, State.halted, h]

theorem State.stepTick_fetchOob {s : State} (h : s.fault = .none) (hp : s.pc.toNat > 4094) :
    s.stepTick = .next { s with fault := .memoryOob } := by
  simp [State.stepTick, State.halted, h, State.fetchOob, hp, State.raise]

theorem State.stepTick_exec {s : State} (h : s.fault = .none) (hp : s.pc.toNat ≤ 4094) :
    s.stepTick = exec (decodeWord s.fetchOp) s := by
  simp [State.stepTick, State.halted, h, State.fetchOob, Nat.not_lt.mpr hp]

/-- A step tick with the host's own random byte is one with that byte in `rnd`, after which the byte still to come is
back. -/
theorem State.stepTickWith_next {s t : State} {r : Byte} (h : s.stepTickWith r = .next t) :
    ∃ u, State.stepTick { s with rnd := r } = .next u ∧ t = { u with rnd := s.rnd, draws := s.draws } := by
  unfold State.stepTickWith at h
  split at h
  · exact ⟨_, ‹_›, by simpa using h.symm⟩
  · simp at h
  · simp at h

theorem State.loadEvent_next {s t : State} {rom : List Byte} (h : s.loadEvent rom = .next t) :
    rom.length ≤ romMax ∧ t = s.resetEvent.writeBytes progBase rom := by
  unfold State.loadEvent at h
  split at h
  · exact ⟨‹_›, by simpa using h.symm⟩
  · simp at h

/-- What one event can do (00_scope.md R7). -/
theorem applyEvent_cases {e : Event} {s t : State} (h : applyEvent e s = .next t) :
    (e = .reset ∧ t = s.resetEvent) ∨
      (∃ rom, e = .load rom ∧ rom.length ≤ romMax ∧ t = s.resetEvent.writeBytes progBase rom) ∨
      (∃ r u, e = .stepTick r ∧ State.stepTick { s with rnd := r } = .next u ∧
        t = { u with rnd := s.rnd, draws := s.draws }) ∨
      (e = .timerTick ∧ t = s.timerTick) ∨ ∃ k down, t = s.setKey k down ∧
        (e = .keyPress k ∧ down = true ∨ e = .keyRelease k ∧ down = false) := by
  cases e with
  | reset => exact .inl ⟨rfl, by simpa [applyEvent] using h.symm⟩
  | load rom => exact .inr (.inl ⟨rom, rfl, State.loadEvent_next h⟩)
  | stepTick r =>
    obtain ⟨u, hu, ht⟩ := State.stepTickWith_next h
    exact .inr (.inr (.inl ⟨r, u, rfl, hu, ht⟩))
  | timerTick => exact .inr (.inr (.inr (.inl ⟨rfl, by simpa [applyEvent] using h.symm⟩)))
  | keyPress k =>
    exact .inr (.inr (.inr (.inr ⟨k, true, by simpa [applyEvent] using h.symm, .inl ⟨rfl, rfl⟩⟩)))
  | keyRelease k =>
    exact .inr (.inr (.inr (.inr ⟨k, false, by simpa [applyEvent] using h.symm, .inr ⟨rfl, rfl⟩⟩)))

/-! ### The schedule -/

theorem State.nextScheduled_pending {s : State} {e : Event} {rest : List Event} (h : s.pending = e :: rest) :
    s.nextScheduled = some (e, { s with pending := rest }) := by
  simp [State.nextScheduled, h]

theorem State.nextScheduled_steps {s : State} (h : s.pending = []) (hl : s.later = .steps) :
    s.nextScheduled = none := by
  simp [State.nextScheduled, h, hl]

theorem State.nextScheduled_cycle {s : State} {e : Event} {rest : List Event} (h : s.pending = [])
    (hl : s.later = .cycle e rest) : s.nextScheduled = some (e, { s with pending := rest }) := by
  simp [State.nextScheduled, h, hl]

theorem State.nextScheduled_free {s : State} {n : Nat} (h : s.pending = []) (hl : s.later = .free n) :
    s.nextScheduled = some (Config.freeEvent n, { s with later := .free (n + 1) }) := by
  simp [State.nextScheduled, h, hl]

/-- Taking an event off the schedule changes the schedule alone. -/
theorem State.nextScheduled_frame {s u : State} {e : Event} (h : s.nextScheduled = some (e, u)) :
    u = { s with pending := u.pending, later := u.later } := by
  unfold State.nextScheduled at h
  split at h <;> simp_all <;> obtain ⟨-, rfl⟩ := h <;> rfl

/-- No event is taken off the schedule only under `steps` with nothing pending. -/
theorem State.nextScheduled_none {s : State} (h : s.nextScheduled = none) : s.pending = [] ∧ s.later = .steps := by
  unfold State.nextScheduled at h
  split at h <;> simp_all

theorem step_scheduled {s u : State} {e : Event} (h : s.nextScheduled = some (e, u)) : step s = applyEvent e u := by
  simp [step, nextEvent, h]

theorem step_pending {s : State} {e : Event} {rest : List Event} (h : s.pending = e :: rest) :
    step s = applyEvent e { s with pending := rest } := step_scheduled (State.nextScheduled_pending h)

theorem step_idle {s : State} (h : s.pending = []) (hl : s.later = .steps) : step s = s.stepTick := by
  simp [step, nextEvent, State.nextScheduled_steps h hl]

/-- What a step can do: a step tick with the model's own random byte, or the event the schedule names. -/
theorem step_cases {s t : State} (h : step s = .next t) :
    (s.pending = [] ∧ s.later = .steps ∧ s.stepTick = .next t) ∨
      ∃ e u, s.nextScheduled = some (e, u) ∧ u = { s with pending := u.pending, later := u.later } ∧
        applyEvent e u = .next t := by
  cases hn : s.nextScheduled with
  | none =>
    obtain ⟨hp, hl⟩ := State.nextScheduled_none hn
    exact .inl ⟨hp, hl, by rw [← step_idle hp hl]; exact h⟩
  | some p => exact .inr ⟨p.1, p.2, rfl, State.nextScheduled_frame hn, by rw [← step_scheduled hn]; exact h⟩

/-- One more event of a schedule. -/
theorem runEvents_succ {σ : Nat → Event} {k : Nat} {s t : State} (h : runEvents σ k s = .next t) :
    runEvents σ (k + 1) s = applyEvent (σ k) t := by
  simp [runEvents, h]

/-- A property that every event of a schedule keeps, none of them refused, holds all along it. -/
theorem runEvents_induction {σ : Nat → Event} {P : Nat → State → Prop} {s : State} (h0 : P 0 s)
    (hs : ∀ k t, P k t → ∃ u, applyEvent (σ k) t = .next u ∧ P (k + 1) u) (k : Nat) :
    ∃ t, runEvents σ k s = .next t ∧ P k t := by
  induction k with
  | zero => exact ⟨s, rfl, h0⟩
  | succ k ih =>
    obtain ⟨t, ht, hp⟩ := ih
    rw [runEvents_succ ht]
    exact hs k t hp

/-- withFetchWord places its word where the next step fetches. -/
theorem State.fetchOp_withFetchWord (s : State) (nbits w : Nat) :
    (s.withFetchWord nbits w).fetchOp = tableWord nbits w := by
  simp only [State.withFetchWord, State.fetchOp, State.writeBytes_pc, State.readByte_writeBytes]
  simp [opcodeBytes]

/-! ### The encodings as the instruction rules write them are the encoder's words -/

theorem ofNat16_fin16 (x : Fin 16) : BitVec.ofNat 16 x.val = (nibbleBits x).setWidth 16 := by
  revert x; decide

theorem opNNN_eq (c : BitVec 4) (nnn : BitVec 12) : opNNN (c ++ 0#12 : BitVec 16) nnn = encNNN c nnn := by
  unfold opNNN encNNN
  refine BitVec.eq_of_getLsbD_eq fun i hi => ?_
  interval_cases i <;> simp [-BitVec.getLsbD_eq_getElem]

theorem opXKK_eq (c : BitVec 4) (x : Reg) (kk : Byte) :
    opXKK (c ++ 0#12 : BitVec 16) x kk = encXKK c x kk := by
  unfold opXKK encXKK
  rw [ofNat16_fin16]
  refine BitVec.eq_of_getLsbD_eq fun i hi => ?_
  interval_cases i <;> simp [-BitVec.getLsbD_eq_getElem]

theorem opX_eq (c : BitVec 4) (x : Reg) (kk : Byte) :
    opX (c ++ (0#4 ++ kk : BitVec 12) : BitVec 16) x = encXKK c x kk := by
  unfold opX encXKK
  rw [ofNat16_fin16]
  refine BitVec.eq_of_getLsbD_eq fun i hi => ?_
  interval_cases i <;> simp [-BitVec.getLsbD_eq_getElem]

theorem opXY_eq (c n : BitVec 4) (x y : Reg) :
    opXY (c ++ (0#8 ++ n : BitVec 12) : BitVec 16) x y = encXYN c x y n := by
  unfold opXY encXYN
  rw [ofNat16_fin16, ofNat16_fin16]
  refine BitVec.eq_of_getLsbD_eq fun i hi => ?_
  interval_cases i <;> simp [-BitVec.getLsbD_eq_getElem]

theorem opXYN_eq (c : BitVec 4) (x y : Reg) (n : Fin 16) :
    opXYN (c ++ 0#12 : BitVec 16) x y n = encXYN c x y (nibbleBits n) := by
  unfold opXYN opXY encXYN
  rw [ofNat16_fin16, ofNat16_fin16, ofNat16_fin16]
  refine BitVec.eq_of_getLsbD_eq fun i hi => ?_
  interval_cases i <;> simp [-BitVec.getLsbD_eq_getElem]

end Sys2Proof.Machine
end

