-- ==== Sys2Proof/Laws/Frames.lean ====
section
/-! SUPPORT. The frames of the shared forms of a meaning: a register write, a jump, a skip, a no-op. -/

namespace Sys2Proof.Machine

theorem sameBytes_of_mem {s t : State} (hm : t.mem = s.mem) (hc : t.cfg = s.cfg) : sameBytes s t := by
  intro a
  simp [State.readByte, hm, hc]

/-- A register write after the fetch advance changes that register alone. -/
theorem onlyReg_setReg (s : State) (x : Reg) (w : Byte) : onlyReg s (s.advance.setReg x w) x w := by
  refine ⟨?_, fun r hr => ?_, sameBytes_of_mem rfl rfl, rfl⟩
  · rw [State.getElem_setReg, if_pos rfl]
  · rw [State.getElem_setReg, if_neg hr]; rfl

/-- A write of `PC` changes the counter alone. -/
theorem onlyPc_setPc (s : State) (p : Word) : onlyPc s (s.advance.setPc p) p :=
  ⟨rfl, sameBytes_of_mem rfl rfl⟩

/-- The no-op changes the counter alone. -/
theorem onlyPc_advance (s : State) : onlyPc s s.advance (s.pc + 2) := ⟨rfl, sameBytes_of_mem rfl rfl⟩

/-- A skip changes the counter alone: plus 4 or plus 2. -/
theorem onlyPc_skipIf (s : State) (c : Bool) :
    onlyPc s (s.advance.skipIf c) (if c then s.pc + 4 else s.pc + 2) := by
  cases c
  · exact onlyPc_advance s
  · have h : s.pc + 2 + 2 = s.pc + 4 := by rw [BitVec.add_assoc]; rfl
    refine ⟨?_, sameBytes_of_mem rfl rfl⟩
    show { s with pc := s.pc + 2 + 2 } = _
    rw [h]; rfl

/-- What the flag-writing forms leave alone. -/
theorem onlyRegs_of {s t : State} {x : Reg} (hr : ∀ r : Reg, r ≠ x → r ≠ Reg.vf → t.v[r] = s.v[r])
    (ht : t = { s with v := t.v, pc := s.pc + 2 }) : onlyRegs s t (fun r => r = x ∨ r = Reg.vf) :=
  ⟨fun r h => hr r (fun e => h (.inl e)) (fun e => h (.inr e)),
    sameBytes_of_mem (by rw [ht]) (by rw [ht]), ht⟩

end Sys2Proof.Machine
end

