-- ==== Sys2Proof/Laws/PerInstr.lean ====
section
/-! SUPPORT. The family of per-instruction lemmas about the encoding: decoding an encoded well-formed instruction gives
it back, with every operand at every value. -/

namespace Sys2Proof.Laws.RoundTrip

/-- Decode after encode, for one instruction. -/
def Statement (i : Instr) : Prop := i.wf = true → decodeWord (encode i) = i

theorem cls : Statement .cls :=
  fun _ => by decide

theorem ret : Statement .ret :=
  fun _ => by decide

theorem jp (nnn : BitVec 12) : Statement (.jp nnn) :=
  fun _ => by simp [decodeWord, encode, fields_encNNN, decodeFields]

theorem call (nnn : BitVec 12) : Statement (.call nnn) :=
  fun _ => by simp [decodeWord, encode, fields_encNNN, decodeFields]

theorem seImm (x : Reg) (kk : Byte) : Statement (.seImm x kk) :=
  fun _ => by simp [decodeWord, encode, fields_encXKK, decodeFields]

theorem sneImm (x : Reg) (kk : Byte) : Statement (.sneImm x kk) :=
  fun _ => by simp [decodeWord, encode, fields_encXKK, decodeFields]

theorem seReg (x y : Reg) : Statement (.seReg x y) :=
  fun _ => by simp [decodeWord, encode, fields_encXYN, decodeFields, decodeClass5]

theorem sneReg (x y : Reg) : Statement (.sneReg x y) :=
  fun _ => by simp [decodeWord, encode, fields_encXYN, decodeFields, decodeClass9]

theorem ldImm (x : Reg) (kk : Byte) : Statement (.ldImm x kk) :=
  fun _ => by simp [decodeWord, encode, fields_encXKK, decodeFields]

theorem addImm (x : Reg) (kk : Byte) : Statement (.addImm x kk) :=
  fun _ => by simp [decodeWord, encode, fields_encXKK, decodeFields]

theorem ldReg (x y : Reg) : Statement (.ldReg x y) :=
  fun _ => by simp [decodeWord, encode, fields_encXYN, decodeFields, decodeClass8]

theorem orReg (x y : Reg) : Statement (.orReg x y) :=
  fun _ => by simp [decodeWord, encode, fields_encXYN, decodeFields, decodeClass8]

theorem andReg (x y : Reg) : Statement (.andReg x y) :=
  fun _ => by simp [decodeWord, encode, fields_encXYN, decodeFields, decodeClass8]

theorem xorReg (x y : Reg) : Statement (.xorReg x y) :=
  fun _ => by simp [decodeWord, encode, fields_encXYN, decodeFields, decodeClass8]

theorem addReg (x y : Reg) : Statement (.addReg x y) :=
  fun _ => by simp [decodeWord, encode, fields_encXYN, decodeFields, decodeClass8]

theorem subReg (x y : Reg) : Statement (.subReg x y) :=
  fun _ => by simp [decodeWord, encode, fields_encXYN, decodeFields, decodeClass8]

theorem shrReg (x y : Reg) : Statement (.shrReg x y) :=
  fun _ => by simp [decodeWord, encode, fields_encXYN, decodeFields, decodeClass8]

theorem subnReg (x y : Reg) : Statement (.subnReg x y) :=
  fun _ => by simp [decodeWord, encode, fields_encXYN, decodeFields, decodeClass8]

theorem shlReg (x y : Reg) : Statement (.shlReg x y) :=
  fun _ => by simp [decodeWord, encode, fields_encXYN, decodeFields, decodeClass8]

theorem ldI (nnn : BitVec 12) : Statement (.ldI nnn) :=
  fun _ => by simp [decodeWord, encode, fields_encNNN, decodeFields]

theorem jpV0 (nnn : BitVec 12) : Statement (.jpV0 nnn) :=
  fun _ => by simp [decodeWord, encode, fields_encNNN, decodeFields]

theorem rnd (x : Reg) (kk : Byte) : Statement (.rnd x kk) :=
  fun _ => by simp [decodeWord, encode, fields_encXKK, decodeFields]

theorem drw (x y : Reg) (n : Fin 16) : Statement (.drw x y n) :=
  fun _ => by simp [decodeWord, encode, fields_encXYN, decodeFields]

theorem skp (x : Reg) : Statement (.skp x) :=
  fun _ => by simp [decodeWord, encode, fields_encXKK, decodeFields, decodeClassE]

theorem sknp (x : Reg) : Statement (.sknp x) :=
  fun _ => by simp [decodeWord, encode, fields_encXKK, decodeFields, decodeClassE]

theorem ldVxDt (x : Reg) : Statement (.ldVxDt x) :=
  fun _ => by simp [decodeWord, encode, fields_encXKK, decodeFields, decodeClassF]

theorem ldDtVx (x : Reg) : Statement (.ldDtVx x) :=
  fun _ => by simp [decodeWord, encode, fields_encXKK, decodeFields, decodeClassF]

theorem ldStVx (x : Reg) : Statement (.ldStVx x) :=
  fun _ => by simp [decodeWord, encode, fields_encXKK, decodeFields, decodeClassF]

theorem ldVxK (x : Reg) : Statement (.ldVxK x) :=
  fun _ => by simp [decodeWord, encode, fields_encXKK, decodeFields, decodeClassF]

theorem addI (x : Reg) : Statement (.addI x) :=
  fun _ => by simp [decodeWord, encode, fields_encXKK, decodeFields, decodeClassF]

theorem ldF (x : Reg) : Statement (.ldF x) :=
  fun _ => by simp [decodeWord, encode, fields_encXKK, decodeFields, decodeClassF]

theorem ldB (x : Reg) : Statement (.ldB x) :=
  fun _ => by simp [decodeWord, encode, fields_encXKK, decodeFields, decodeClassF]

theorem stRegs (x : Reg) : Statement (.stRegs x) :=
  fun _ => by simp [decodeWord, encode, fields_encXKK, decodeFields, decodeClassF]

theorem ldRegs (x : Reg) : Statement (.ldRegs x) :=
  fun _ => by simp [decodeWord, encode, fields_encXKK, decodeFields, decodeClassF]

theorem nop0 (low : BitVec 12) : Statement (.nop0 low) := by
  intro h
  simp [Instr.wf] at h
  simp [decodeWord, encode, fields_encNNN, decodeFields, decodeClass0, h]

theorem nop5 (low : BitVec 12) : Statement (.nop5 low) := by
  intro h
  simp [Instr.wf] at h
  simp [decodeWord, encode, fields_encNNN, decodeFields, decodeClass5, h]

theorem nop8 (low : BitVec 12) : Statement (.nop8 low) := by
  intro h
  simp [Instr.wf, aluSubOpcodes] at h
  simp [decodeWord, encode, fields_encNNN, decodeFields, decodeClass8, h]

theorem nop9 (low : BitVec 12) : Statement (.nop9 low) := by
  intro h
  simp [Instr.wf] at h
  simp [decodeWord, encode, fields_encNNN, decodeFields, decodeClass9, h]

theorem nopE (low : BitVec 12) : Statement (.nopE low) := by
  intro h
  simp [Instr.wf, keySubOpcodes] at h
  simp [decodeWord, encode, fields_encNNN, decodeFields, decodeClassE, h]

theorem nopF (low : BitVec 12) : Statement (.nopF low) := by
  intro h
  simp [Instr.wf, miscSubOpcodes] at h
  simp [decodeWord, encode, fields_encNNN, decodeFields, decodeClassF, h]

end Sys2Proof.Laws.RoundTrip
end

