-- ==== Sys2Proof/Tests/Slice0.lean ====
section
/-! SUPPORT. The model's own tests. Expected values are those of spec/95_test_vectors.md (the number of the vector
stands beside the test) or are worked out by hand from the rule cited. Then the witnesses: for every statement of
Obligations.lean that has hypotheses, a concrete state and operands that meet them together. -/

namespace Sys2Proof.Tests

open Sys2Proof Sys2Proof.Machine

/-! ### Helpers -/

/-- Does the result answer a next state with the property? -/
def ends (r : Result) (p : State → Bool) : Bool :=
  match r with
  | .next t    => p t
  | .fault _   => false
  | .refused _ => false

/-- One step of the opcode from the reset state with some elements changed. -/
def probe (op : Nat) (mk : State → State) : Result := step ((mk State.reset).withFetchWord 16 op)

/-- `V[p.1] <- p.2` for each pair. -/
def regs (l : List (Reg × Byte)) (s : State) : State := l.foldl (fun s p => s.setReg p.1 p.2) s

/-- The stack holding the listed entries, oldest first. -/
def stack (l : List Word) (s : State) : State :=
  { s with sp := Fin.ofNat 17 l.length, stk := Vector.ofFn fun j => l.getD j.val 0 }

/-- The configuration changed. -/
def withCfg (f : Config → Config) (s : State) : State := { s with cfg := f s.cfg }

/-- The keys pressed. -/
def press (l : List Key) (s : State) : State := l.foldl (fun s k => s.setKey k true) s

/-- The display with exactly the listed cells set. -/
def cells (l : List Nat) : Display := l.foldl Display.flip 0

/-- The registers of a state, as numbers. -/
def vals (l : List Reg) (s : State) : List Nat := l.map fun r => s.v[r].toNat

/-! ### Well-formed terms: each check of 30_encoding.md R76's table refuses a term -/

theorem test_wf_nop0_cls : Instr.wf (.nop0 0x0E0) = false := by decide
theorem test_wf_nop0_ret : Instr.wf (.nop0 0x0EE) = false := by decide
theorem test_wf_nop5 : Instr.wf (.nop5 0x120) = false := by decide
theorem test_wf_nop8 : Instr.wf (.nop8 0x124) = false ∧ Instr.wf (.nop8 0x12E) = false := by decide
theorem test_wf_nop9 : Instr.wf (.nop9 0x120) = false := by decide
theorem test_wf_nopE : Instr.wf (.nopE 0x19E) = false ∧ Instr.wf (.nopE 0x1A1) = false := by decide
theorem test_wf_nopF : Instr.wf (.nopF 0x107) = false ∧ Instr.wf (.nopF 0x165) = false := by decide
theorem test_wf_accepts : Instr.wf (.nop0 0x1E0) = true ∧ Instr.wf (.nop5 0x121) = true ∧
    Instr.wf (.nop8 0x12F) = true ∧ Instr.wf (.nop9 0x12F) = true ∧ Instr.wf (.nopE 0x19F) = true ∧
    Instr.wf (.nopF 0x175) = true ∧ Instr.wf (.drw 15 15 0) = true := by decide

/-! ### Decoding: every constructor from a word written out from 30_encoding.md R74's patterns -/

theorem test_decode_class0 :
    decodeWord 0b0000000011100000#16 = .cls ∧ decodeWord 0b0000000011101110#16 = .ret ∧
    decodeWord 0b0000000111100000#16 = .nop0 0x1E0 := by decide
theorem test_decode_nnn :
    decodeWord 0b0001101010111100#16 = .jp 0xABC ∧ decodeWord 0b0010010001010110#16 = .call 0x456 ∧
    decodeWord 0b1010111111111111#16 = .ldI 0xFFF ∧ decodeWord 0b1011001000000100#16 = .jpV0 0x204 := by decide
theorem test_decode_xkk :
    decodeWord 0b0011000101000010#16 = .seImm 1 0x42 ∧ decodeWord 0b0100001001000011#16 = .sneImm 2 0x43 ∧
    decodeWord 0b0110101011111110#16 = .ldImm 10 0xFE ∧ decodeWord 0b0111111100000001#16 = .addImm 15 0x01 ∧
    decodeWord 0b1100000100001111#16 = .rnd 1 0x0F := by decide
theorem test_decode_skip_registers :
    decodeWord 0b0101000100100000#16 = .seReg 1 2 ∧ decodeWord 0b0101000100100001#16 = .nop5 0x121 ∧
    decodeWord 0b1001001100010000#16 = .sneReg 3 1 ∧ decodeWord 0b1001000100101111#16 = .nop9 0x12F := by decide
theorem test_decode_class8 :
    decodeWord 0b1000000100100000#16 = .ldReg 1 2 ∧ decodeWord 0b1000000100100001#16 = .orReg 1 2 ∧
    decodeWord 0b1000000100100010#16 = .andReg 1 2 ∧ decodeWord 0b1000000100100011#16 = .xorReg 1 2 ∧
    decodeWord 0b1000101010110100#16 = .addReg 10 11 ∧ decodeWord 0b1000000100100101#16 = .subReg 1 2 ∧
    decodeWord 0b1000000100100110#16 = .shrReg 1 2 ∧ decodeWord 0b1000000100100111#16 = .subnReg 1 2 ∧
    decodeWord 0b1000000100101110#16 = .shlReg 1 2 ∧ decodeWord 0b1000000100101000#16 = .nop8 0x128 := by decide
theorem test_decode_draw_and_keys :
    decodeWord 0b1101000100100101#16 = .drw 1 2 5 ∧ decodeWord 0b1110000110011110#16 = .skp 1 ∧
    decodeWord 0b1110001010100001#16 = .sknp 2 ∧ decodeWord 0b1110000110011111#16 = .nopE 0x19F := by decide
theorem test_decode_classF :
    decodeWord 0b1111000100000111#16 = .ldVxDt 1 ∧ decodeWord 0b1111001000010101#16 = .ldDtVx 2 ∧
    decodeWord 0b1111001100011000#16 = .ldStVx 3 ∧ decodeWord 0b1111010000001010#16 = .ldVxK 4 ∧
    decodeWord 0b1111111100011110#16 = .addI 15 ∧ decodeWord 0b1111000000101001#16 = .ldF 0 ∧
    decodeWord 0b1111010100110011#16 = .ldB 5 ∧ decodeWord 0b1111011001010101#16 = .stRegs 6 ∧
    decodeWord 0b1111011101100101#16 = .ldRegs 7 ∧ decodeWord 0b1111000101110101#16 = .nopF 0x175 := by decide

/-- R70: the byte at the lower address is the high one; the bytes after the opcode are left over. -/
theorem test_decode_bytes : decode [0x60, 0x2A, 0xFF] = .ok (.ldImm 0 0x2A, [0xFF]) := by rfl
theorem test_decode_one_byte : decode [0x60] = .error .truncated := by rfl
/-- The table's numbering: bit 0 is the opcode's least significant bit. -/
theorem test_decodeTableWord : decodeTableWord 16 0x8AB4 = some (.addReg 10 11) := by decide
theorem test_encode : encode (.addReg 10 11) = 0x8AB4 ∧ encode (.ldB 5) = 0xF533 ∧ encode (.drw 1 2 5) = 0xD125 := by
  decide

/-! ### Control transfer (95_test_vectors.md 2.1) -/

/-- F1 -/
theorem test_jp : ends (probe 0x1ABC id) (fun t => t.pc == 0x0ABC) = true := by decide
/-- F4 -/
theorem test_call : ends (probe 0x2456 fun s => (stack [0x0202] s).setPc 0x0300)
    (fun t => t.stk[1] == 0x0302 && t.stk[0] == 0x0202 && t.sp == 2 && t.pc == 0x0456) = true := by decide
/-- F5 -/
theorem test_call_overflow : ends (probe 0x2456 (stack (List.replicate 16 0x0202)))
    (fun t => t.fault == .stackOverflow && t.pc == 0x0200 && t.sp == 16) = true := by decide
/-- F6 -/
theorem test_ret : ends (probe 0x00EE fun s => (stack [0x0202, 0x0456] s).setPc 0x0300)
    (fun t => t.sp == 1 && t.pc == 0x0456) = true := by decide
/-- F7 -/
theorem test_ret_underflow : ends (probe 0x00EE id)
    (fun t => t.fault == .stackUnderflow && t.pc == 0x0200 && t.sp == 0) = true := by decide
/-- F8, F9 -/
theorem test_seImm : ends (probe 0x3042 (regs [(0, 0x42)])) (fun t => t.pc == 0x0204) = true ∧
    ends (probe 0x3042 (regs [(0, 0x43)])) (fun t => t.pc == 0x0202) = true := by decide
/-- F10, F11 -/
theorem test_sneImm : ends (probe 0x4042 (regs [(0, 0x42)])) (fun t => t.pc == 0x0202) = true ∧
    ends (probe 0x4042 (regs [(0, 0x43)])) (fun t => t.pc == 0x0204) = true := by decide
/-- F12, F13 -/
theorem test_seReg : ends (probe 0x5120 (regs [(1, 7), (2, 7)])) (fun t => t.pc == 0x0204) = true ∧
    ends (probe 0x5120 (regs [(1, 7), (2, 8)])) (fun t => t.pc == 0x0202) = true := by decide
/-- F15, F16 -/
theorem test_sneReg : ends (probe 0x9120 (regs [(1, 7), (2, 8)])) (fun t => t.pc == 0x0204) = true ∧
    ends (probe 0x9120 (regs [(1, 7), (2, 7)])) (fun t => t.pc == 0x0202) = true := by decide
/-- F18 -/
theorem test_jpV0 : ends (probe 0xB204 (regs [(0, 0x06), (2, 0x10)])) (fun t => t.pc == 0x020A) = true := by decide
/-- F21 -/
theorem test_jpV0_vx : ends (probe 0xBFFF fun s => withCfg (fun c => { c with qJumpOffset := .vx }) (regs [(15, 0xFF)] s))
    (fun t => t.pc == 0x10FE && t.fault == .none) = true := by decide
/-- F30: not 00E0 -/
theorem test_nop0 : ends (probe 0x01E0 fun s => { s with disp := BitVec.allOnes 2048 })
    (fun t => t.pc == 0x0202 && t.disp == BitVec.allOnes 2048) = true := by decide +kernel
/-- F32 -/
theorem test_nop5 : ends (probe 0x5121 id) (fun t => t.pc == 0x0202) = true := by decide
/-- F33 -/
theorem test_nop9 : ends (probe 0x912F (regs [(1, 1)])) (fun t => t.pc == 0x0202) = true := by decide
/-- F34 -/
theorem test_nop8 : ends (probe 0x812F (regs [(1, 5), (2, 6), (15, 3)]))
    (fun t => t.pc == 0x0202 && vals [1, 2, 15] t == [5, 6, 3]) = true := by decide
/-- F35 -/
theorem test_nopE : ends (probe 0xE1A0 id) (fun t => t.pc == 0x0202) = true := by decide
/-- F36 -/
theorem test_nopF : ends (probe 0xF175 (fun s => s.setI 0x0300)) (fun t => t.pc == 0x0202 && t.i == 0x0300) = true := by
  decide

/-! ### Fetch -/

/-- F22: a skip from the last word -/
theorem test_skip_beyond_memory : ends (probe 0x3000 fun s => s.setPc 0x0FFE)
    (fun t => t.pc == 0x1002 && t.fault == .none) = true := by decide
/-- F24 -/
theorem test_fetch_at_4095 : ends (step (State.reset.setPc 0x0FFF))
    (fun t => t.fault == .memoryOob && t.pc == 0x0FFF) = true := by decide
/-- F26: an odd program counter -/
theorem test_fetch_odd : ends (step ((State.reset.setPc 0x0201).writeBytes 0x201 [0x60, 0x2A]))
    (fun t => t.v[0] == 0x2A && t.pc == 0x0203) = true := by decide
/-- F27 -/
theorem test_halted : ends (step { State.reset with fault := .stackOverflow })
    (fun t => t.fault == .stackOverflow && t.pc == 0x0200) = true := by decide

/-! ### Registers and flag (2.2) -/

/-- A2 -/
theorem test_ldImm : ends (probe 0x6F07 id) (fun t => vals [15] t == [0x07]) = true := by decide
/-- A4, A5: wraps, no flag -/
theorem test_addImm : ends (probe 0x7001 (regs [(0, 0xFF)])) (fun t => vals [0, 15] t == [0x00, 0x00]) = true ∧
    ends (probe 0x7F01 (regs [(15, 0xFF)])) (fun t => vals [15] t == [0x00]) = true := by decide
/-- A6 -/
theorem test_ldReg : ends (probe 0x8120 (regs [(1, 0x11), (2, 0x22), (15, 9)]))
    (fun t => vals [1, 2, 15] t == [0x22, 0x22, 9]) = true := by decide
/-- A7 -/
theorem test_orReg : ends (probe 0x8121 (regs [(1, 0x5A), (2, 0x0F), (15, 9)]))
    (fun t => vals [1, 15] t == [0x5F, 9]) = true := by decide
/-- A8 -/
theorem test_andReg : ends (probe 0x8122 (regs [(1, 0x5A), (2, 0x0F), (15, 9)]))
    (fun t => vals [1, 15] t == [0x0A, 9]) = true := by decide
/-- A9 -/
theorem test_xorReg : ends (probe 0x8123 (regs [(1, 0x5A), (2, 0x0F), (15, 9)]))
    (fun t => vals [1, 15] t == [0x55, 9]) = true := by decide
/-- S3, A11 -/
theorem test_addReg : ends (probe 0x8014 (regs [(0, 0xFF), (1, 1)])) (fun t => vals [0, 1, 15] t == [0, 1, 1]) = true ∧
    ends (probe 0x8014 (regs [(0, 0x7F), (1, 0x80), (15, 1)])) (fun t => vals [0, 15] t == [0xFF, 0]) = true := by decide
/-- A15, A16: the flag is written last, the old VF is the operand -/
theorem test_addReg_vf : ends (probe 0x8F14 (regs [(15, 0x10), (1, 1)])) (fun t => vals [15] t == [0]) = true ∧
    ends (probe 0x80F4 (regs [(0, 0xFE), (15, 3)])) (fun t => vals [0, 15] t == [1, 1]) = true := by decide
/-- S4, A19: equal operands give 0 -/
theorem test_subReg : ends (probe 0x8015 (regs [(0, 1), (1, 2), (15, 9)])) (fun t => vals [0, 15] t == [0xFF, 0]) = true ∧
    ends (probe 0x8015 (regs [(0, 7), (1, 7), (15, 9)])) (fun t => vals [0, 15] t == [0, 0]) = true := by decide
/-- A20, A22 -/
theorem test_subReg_vf : ends (probe 0x8F15 (regs [(15, 5), (1, 3)])) (fun t => vals [15] t == [2]) = true ∧
    ends (probe 0x80F5 (regs [(0, 0x0A), (15, 3)])) (fun t => vals [0, 15] t == [7, 1]) = true := by decide
/-- A23, A25 -/
theorem test_subnReg : ends (probe 0x8017 (regs [(0, 3), (1, 5)])) (fun t => vals [0, 15] t == [2, 1]) = true ∧
    ends (probe 0x8017 (regs [(0, 7), (1, 7), (15, 9)])) (fun t => vals [0, 15] t == [0, 0]) = true := by decide
/-- A26, A27 -/
theorem test_shrReg : ends (probe 0x8126 (regs [(1, 5), (2, 0x0A)])) (fun t => vals [1, 2, 15] t == [5, 0x0A, 0]) = true ∧
    ends (probe 0x8126 fun s => withCfg (fun c => { c with qShiftSrc := .vx }) (regs [(1, 5), (2, 0x0A)] s))
      (fun t => vals [1, 2, 15] t == [2, 0x0A, 1]) = true := by decide
/-- A29 -/
theorem test_shrReg_vf : ends (probe 0x8F16 (regs [(15, 3), (1, 7)])) (fun t => vals [15] t == [3]) = true := by decide
/-- A31, A32 -/
theorem test_shlReg : ends (probe 0x812E (regs [(1, 0x81), (2, 0x40)])) (fun t => vals [1, 15] t == [0x80, 0]) = true ∧
    ends (probe 0x812E fun s => withCfg (fun c => { c with qShiftSrc := .vx }) (regs [(1, 0x81), (2, 0x40)] s))
      (fun t => vals [1, 15] t == [2, 1]) = true := by decide
/-- A34 -/
theorem test_shlReg_vf : ends (probe 0x8F1E (regs [(15, 3), (1, 0xC1)])) (fun t => vals [15] t == [0x82]) = true := by
  decide
/-- A35 -/
theorem test_rnd : ends (probe 0xC10F fun s => { s with rnd := 0xA7 }) (fun t => vals [1] t == [7]) = true := by decide
/-- A36: whatever the random byte -/
theorem test_rnd_mask_zero : ends (probe 0xC100 (regs [(1, 0x55)])) (fun t => vals [1] t == [0]) = true := by
  have h : State.reset.rnd &&& 0 = 0 := BitVec.and_zero
  have e : probe 0xC100 (regs [(1, 0x55)]) =
      .next ((((regs [(1, 0x55)] State.reset).withFetchWord 16 0xC100).advance.setReg 1 (State.reset.rnd &&& 0)).refreshRnd) := rfl
  rw [e, h]
  decide

/-! ### Index register and memory (2.3) -/

/-- M1 -/
theorem test_ldI : ends (probe 0xAFFF fun s => s.setI 0x1234) (fun t => t.i == 0x0FFF) = true := by decide
/-- M5 -/
theorem test_addI : ends (probe 0xF11E fun s => regs [(1, 1), (15, 7)] (s.setI 0xFFFF))
    (fun t => t.i == 0 && vals [15] t == [7]) = true := by decide
/-- M4, M8 -/
theorem test_addI_vf : ends (probe 0xF11E fun s =>
      withCfg (fun c => { c with qAddiVf := .on, addiOvfLimit := 0x0FFF }) (regs [(1, 5), (15, 7)] (s.setI 0x0FFE)))
      (fun t => t.i == 0x1003 && vals [15] t == [1]) = true ∧
    ends (probe 0xFF1E fun s => withCfg (fun c => { c with qAddiVf := .on }) (regs [(15, 2)] (s.setI 0x0100)))
      (fun t => t.i == 0x0102 && vals [15] t == [0]) = true := by decide
/-- M10, M11: no masking -/
theorem test_ldF : ends (probe 0xF029 (regs [(0, 0x0F)])) (fun t => t.i == 0x009B) = true ∧
    ends (probe 0xF029 (regs [(0, 0x10)])) (fun t => t.i == 0x00A0) = true := by decide
/-- S10 -/
theorem test_ldB : ends (probe 0xF033 fun s => regs [(0, 157)] (s.setI 0x0300))
    (fun t => t.readBytes 0x300 3 == [1, 5, 7] && t.i == 0x0300) = true := by decide
/-- R143: `I + 2 = 4096`: nothing is stored (M15) -/
theorem test_ldB_oob : ends (probe 0xF033 fun s => regs [(0, 255)] (s.setI 0x0FFE))
    (fun t => t.fault == .memoryOob && t.pc == 0x0200 && t.readBytes 0xFFE 2 == [0, 0]) = true := by decide
/-- R144: the last byte of memory may be stored to -/
theorem test_stRegs : ends (probe 0xF155 fun s => regs [(0, 0xA0), (1, 0xA1)] (s.setI 0x0FFE))
    (fun t => t.readBytes 0xFFE 2 == [0xA0, 0xA1] && t.i == 0x1000) = true := by decide
/-- R144, R202: one byte beyond, nothing is stored -/
theorem test_stRegs_oob : ends (probe 0xF155 fun s => regs [(0, 0xA0), (1, 0xA1)] (s.setI 0x0FFF))
    (fun t => t.fault == .memoryOob && t.readByte 0xFFF == 0 && t.i == 0x0FFF && t.pc == 0x0200) = true := by decide
/-- R145: the first two bytes of glyph 0 of R51's table -/
theorem test_ldRegs : ends (probe 0xF165 fun s => regs [(2, 0x33)] (s.setI 0x0050))
    (fun t => vals [0, 1, 2] t == [0xF0, 0x90, 0x33] && t.i == 0x0052) = true := by decide
/-- R145 under `Q_MEM_INC = NOINC`: V0 is the opcode's own high byte -/
theorem test_ldRegs_noinc : ends (probe 0xF065 fun s => withCfg (fun c => { c with qMemInc := .noinc }) (s.setI 0x0200))
    (fun t => vals [0] t == [0xF0] && t.i == 0x0200) = true := by decide
/-- A byte written back to what its address reads as at reset is no longer listed (log 14). -/
theorem test_memory_canonical :
    ((State.reset.writeByte 0x50 0x12).writeByte 0x300 0x34).mem = [(0x50, 0x12), (0x300, 0x34)] ∧
    (((State.reset.writeByte 0x50 0x12).writeByte 0x50 0xF0)).mem = [] := by decide

/-! ### Display (2.4) -/

/-- R160 -/
theorem test_cls : ends (probe 0x00E0 fun s => { s with disp := BitVec.allOnes 2048 })
    (fun t => t.disp == 0 && t.pc == 0x0202) = true := by decide +kernel
/-- R161: the anchor wraps (70 mod 64 = 6, 33 mod 32 = 1), bit 7 is leftmost -/
theorem test_drw_anchor : ends (probe 0xD011 fun s => (regs [(0, 70), (1, 33)] (s.setI 0x0300)).writeByte 0x300 0xC1)
    (fun t => t.disp == cells [70, 71, 77] && vals [15] t == [0]) = true := by decide +kernel
/-- S5, second draw, and P3: clipped at the corner, collision -/
theorem test_drw_collision_clip :
    ends (probe 0xD012 fun s => { (regs [(0, 0x7E), (1, 0x3F)] (s.setI 0x0300)).writeBytes 0x300 [0xFF, 0xFF] with
        disp := cells [2046, 2047] })
      (fun t => t.disp == 0 && vals [15] t == [1]) = true := by decide +kernel

/-! ### Keypad and timers (2.5) -/

/-- K1, K5 -/
theorem test_skp : ends (probe 0xE19E fun s => press [5] (regs [(1, 0x15)] s)) (fun t => t.pc == 0x0204) = true ∧
    ends (probe 0xE19E (regs [(1, 5)])) (fun t => t.pc == 0x0202) = true := by decide
/-- K4, K6 -/
theorem test_sknp : ends (probe 0xE1A1 fun s => press [5] (regs [(1, 0x15)] s)) (fun t => t.pc == 0x0202) = true ∧
    ends (probe 0xE1A1 (regs [(1, 5)])) (fun t => t.pc == 0x0204) = true := by decide
/-- K7, K8 -/
theorem test_ldVxK : ends (probe 0xF20A fun s => (regs [(2, 0x77)] s).setPc 0x0300)
      (fun t => t.pc == 0x0300 && vals [2] t == [0x77]) = true ∧
    ends (probe 0xF20A fun s => press [12, 9] (s.setPc 0x0300)) (fun t => t.pc == 0x0302 && vals [2] t == [9]) = true := by
  decide
/-- K10 -/
theorem test_ldVxDt : ends (probe 0xF107 fun s => { s with dt := 0x2C, st := 1 }) (fun t => vals [1] t == [0x2C]) = true := by
  decide
/-- K11 -/
theorem test_ldDtVx : ends (probe 0xF115 (regs [(1, 0xFF)])) (fun t => t.dt == 0xFF && t.st == 0) = true := by decide
/-- K12 -/
theorem test_ldStVx : ends (probe 0xF118 (regs [(1, 1)])) (fun t => t.st == 1 && t.dt == 0 && t.soundOut) = true := by
  decide

/-! ### Events (2.6) -/

/-- E1, through the step: the event is used up. -/
theorem test_timerTick : ends (step { State.reset with dt := 5, st := 1, pending := [.timerTick] })
    (fun t => t.dt == 4 && t.st == 0 && !t.soundOut && t.pc == 0x0200 && t.pending == []) = true := by decide
/-- E4 -/
theorem test_timerTick_halted : ends (applyEvent .timerTick { State.reset with fault := .memoryOob, dt := 2 })
    (fun t => t.dt == 1 && t.fault == .memoryOob) = true := by decide
/-- E8 -/
theorem test_keyRelease : ends (applyEvent (.keyRelease 3) (press [3, 4] State.reset))
    (fun t => !t.key[3] && t.key[4]) = true := by decide
/-- E9 -/
theorem test_reset : ends (applyEvent .reset { (regs [(0, 9)] (press [1] State.reset)).writeByte 0x50 0 with
      fault := .stackOverflow, sp := 16, disp := cells [0] })
    (fun t => t.fault == .none && t.sp == 0 && vals [0] t == [0] && !t.key[1] && t.disp == 0 && t.readByte 0x50 == 0xF0
      && t.pc == 0x0200) = true := by decide +kernel
/-- E10 -/
theorem test_load : ends (applyEvent (.load [0x12]) (State.reset.writeByte 0x201 7))
    (fun t => t.readBytes 0x200 2 == [0x12, 0x00] && t.pc == 0x0200) = true := by decide
/-- R100, R132: the random byte of a pending step tick is the one Cxkk uses. -/
theorem test_stepTick_rnd : ends (step { State.reset.writeBytes 0x200 [0xC1, 0xFF] with pending := [.stepTick 0x5A] })
    (fun t => vals [1] t == [0x5A] && t.pc == 0x0202) = true := by decide

/-- R213: on a schedule that gives a timer tick and a step tick for ever, both fire again and again. -/
theorem test_cycle : ends (core.run 5 { State.reset.writeBytes 0x200 [0x12, 0x00] with
      dt := 9, later := .cycle .timerTick [.stepTick 0] })
    (fun t => t.dt == 6 && t.pc == 0x0200 && t.pending == [.stepTick 0]) = true := by decide
/-- withFetchWord makes the next step the step tick of its word, whatever the schedule was. -/
theorem test_withFetchWord_schedule :
    ends (step (State.withFetchWord { State.reset with later := .free 7, pending := [.timerTick] } 16 0x602A))
      (fun t => vals [0] t == [0x2A] && t.pc == 0x0202) = true := by decide

/-! ### Witnesses: the hypotheses of each statement, met together, one theorem per clause at a boundary value -/

/-- The reset state with registers V0 to VF holding 0xA0 to 0xAF. -/
def filled : State := { State.reset with v := Vector.ofFn fun k => BitVec.ofNat 8 (0xA0 + k.val) }

/-- A ROM of `n` bytes. -/
def rom (n : Nat) : List Byte := List.replicate n 0xAB

theorem length_rom (n : Nat) : (rom n).length = n := List.length_replicate

/-- A `Load` comes next. -/
def loading (n : Nat) : State := { State.reset with pending := [.load (rom n)] }

theorem step_loading (n : Nat) :
    step (loading n) = State.loadEvent { loading n with pending := [] } (rom n) := rfl

theorem step_loading_refused (n : Nat) (h : 3584 < n) : step (loading n) = .refused .romTooLong := by
  have hr : ¬(rom n).length ≤ romMax := by rw [length_rom]; exact Nat.not_le.mpr h
  rw [step_loading, State.loadEvent, if_neg hr]

/-- A full stack. -/
def fullStack : State := stack (List.replicate 16 0x1000) State.reset

theorem witness_DecodeEncodeRoundTrip :
    Instr.wf (.drw 15 15 15) = true ∧ Instr.wf (.nop0 0xFFF) = true ∧ Instr.wf .cls = true := by decide
theorem witness_DecoderFollowsOpcodeMap :
    (⟨1, 0xFFFF, 0x00E0⟩ : Row) ∈ opcodeMap ∧ 0x00E0#16 &&& 0xFFFF = 0x00E0 ∧
    (⟨34, 0xF0FF, 0xF065⟩ : Row) ∈ opcodeMap ∧ 0xFF65#16 &&& 0xF0FF = 0xF065 ∧
    ∀ r ∈ opcodeMap, 0xFFFF#16 &&& r.mask ≠ r.pattern := by decide
theorem witness_StepRunsDecodedInstruction_idle :
    let s := (State.reset.setPc 0x0FFE).writeBytes 0xFFE [0xC0, 0xFF]
    s.fault = .none ∧ s.pc.toNat ≤ 4094 ∧
      decode [s.readByte s.pc.toNat, s.readByte (s.pc.toNat + 1)] = .ok (.rnd 0 0xFF, []) ∧ s.pending = [] ∧
      s.later = .steps ∧ ∃ t, exec (.rnd 0 0xFF) { s with rnd := 0x5A } = .next t :=
  ⟨rfl, by decide, rfl, rfl, rfl, _, rfl⟩
theorem witness_StepRunsDecodedInstruction_pending :
    let s := { State.reset.writeBytes 0x200 [0xC0, 0xFF] with pending := [.stepTick 0x5A, .timerTick] }
    s.fault = .none ∧ s.pc.toNat ≤ 4094 ∧
      decode [s.readByte s.pc.toNat, s.readByte (s.pc.toNat + 1)] = .ok (.rnd 0 0xFF, []) ∧
      s.pending = [.stepTick 0x5A, .timerTick] ∧
      ∃ t, exec (.rnd 0 0xFF) { s with pending := [.timerTick], rnd := 0x5A } = .next t :=
  ⟨rfl, by decide, rfl, rfl, _, rfl⟩
theorem witness_FetchBeyondMemoryFaults :
    (State.reset.setPc 0x0FFF).fault = .none ∧ 4094 < (State.reset.setPc 0x0FFF).pc.toNat ∧
    4094 < (State.reset.setPc 0xFFFF).pc.toNat ∧
    (State.reset.setPc 0x0FFF).pending = [] ∧ (State.reset.setPc 0x0FFF).later = .steps ∧
    { State.reset.setPc 0x0FFF with pending := [.stepTick 1, .reset] }.pending = [.stepTick 1, .reset] := by decide
theorem witness_HaltedCoreIgnoresSteps :
    let s := { press [0] State.reset with fault := .stackUnderflow, dt := 1 }
    s.fault ≠ .none ∧ (1 : Key) ≠ 0 := by decide
theorem witness_StepTakesFirstPendingEvent :
    { State.reset with pending := [.keyPress 15, .reset] }.pending = [.keyPress 15, .reset] ∧
    State.reset.pending = [] ∧ State.reset.later = .steps ∧
    { State.reset with later := .cycle .timerTick [.stepTick 0] }.later = .cycle .timerTick [.stepTick 0] ∧
    { State.reset with later := .free 0 }.later = .free 0 := ⟨rfl, rfl, rfl, rfl, rfl⟩
theorem witness_StepRefusesOnlyOversizeLoads_refused :
    (∃ u, (loading 3585).nextScheduled = some (.load (rom 3585), u)) ∧ 3584 < (rom 3585).length ∧
      step (loading 3585) = .refused .romTooLong :=
  ⟨⟨_, rfl⟩, by rw [length_rom]; omega, step_loading_refused _ (by omega)⟩
theorem witness_StepRefusesOnlyOversizeLoads_next :
    (∃ u, (loading 3584).nextScheduled = some (.load (rom 3584), u)) ∧ ∃ t, step (loading 3584) = .next t :=
  ⟨⟨_, rfl⟩, _, (step_loading 3584).trans (by rw [State.loadEvent, if_pos (by rw [length_rom])])⟩
theorem witness_CallPushesReturnAddress : (stack (List.replicate 15 0x0202) State.reset).sp.val < 16 := by decide
theorem witness_ReturnPopsNewestEntry : fullStack.sp.val = 15 + 1 ∧ (15 : Nat) < 16 ∧
    (stack [0x0202] State.reset).sp.val = 0 + 1 := by decide
theorem witness_ReturnAfterCallRestoresPc :
    let s := stack (List.replicate 15 0x0202) State.reset
    ∃ (h : s.sp.val < 16) (t u : State), exec (.call 0xFFF) s = .next t ∧ u.sp = t.sp ∧
      u.stk[s.sp.val] = t.stk[s.sp.val] ∧ u.pc = 0x0300 :=
  ⟨by decide, _, State.setPc _ 0x0300, rfl, rfl, rfl, rfl⟩
theorem witness_JumpWithOffsetAddsRegister :
    (15 : Reg).val = (0xFFF#12).toNat / 256 ∧ (0 : Reg).val = (0x0FF#12).toNat / 256 ∧
    State.reset.cfg.qJumpOffset = .v0 ∧
    (withCfg (fun c => { c with qJumpOffset := .vx }) State.reset).cfg.qJumpOffset = .vx := by decide
theorem witness_UnmatchedOpcodesAreNoOps :
    (∀ r ∈ opcodeMap, 0x812F#16 &&& r.mask ≠ r.pattern) ∧
    Instr.nopF 0x175 ∈ [Instr.nop0 0x175, .nop5 0x175, .nop8 0x175, .nop9 0x175, .nopE 0x175, .nopF 0x175] := by
  decide
theorem witness_AddWritesCarryLast : (14 : Reg) ≠ Reg.vf ∧
    filled.v[(0 : Reg)].toNat + filled.v[(1 : Reg)].toNat > 255 ∧
    ¬State.reset.v[(0 : Reg)].toNat + State.reset.v[(1 : Reg)].toNat > 255 := by decide
theorem witness_SubtractWritesResultLast : (14 : Reg) ≠ Reg.vf ∧
    filled.v[(1 : Reg)].toNat > filled.v[(0 : Reg)].toNat ∧
    ¬filled.v[(0 : Reg)].toNat > filled.v[(0 : Reg)].toNat := by decide
theorem witness_ShiftsMoveOneBit :
    let s := withCfg (fun c => { c with qShiftSrc := .vx }) filled
    (0xA1 : Byte) = (if filled.cfg.qShiftSrc = .vy then filled.v[(1 : Reg)] else filled.v[(0 : Reg)]) ∧
    (0xA0 : Byte) = (if s.cfg.qShiftSrc = .vy then s.v[(1 : Reg)] else s.v[(0 : Reg)]) ∧ (0 : Reg) ≠ Reg.vf := by
  decide
theorem witness_RandomIsMaskedDraw : (0x0F : Byte).getLsbD 7 = false ∧ (0x00 : Byte).getLsbD 0 = false := by decide
theorem witness_RandomByteMattersOnlyToRnd :
    (∀ x kk, Instr.drw 0 1 15 ≠ .rnd x kk) ∧ ∃ t, exec (.drw 0 1 15) filled = .next t := ⟨by simp, _, rfl⟩
theorem witness_AddIndexWrapsAt16Bits :
    State.reset.cfg.qAddiVf = .off ∧ (withCfg (fun c => { c with qAddiVf := .on }) State.reset).cfg.qAddiVf = .on ∧
    (0 : Reg) ≠ Reg.vf := by decide
theorem witness_GlyphAddressPointsAtFont :
    let s := regs [(3, 0x0F)] State.reset
    s.mem = [] ∧ s.v[(3 : Reg)].toNat < 16 ∧ 4 < 5 ∧ (79 : Fin 80).val = 5 * s.v[(3 : Reg)].toNat + 4 := by decide
theorem witness_BcdStoresThreeDigits : (State.reset.setI 0x0FFD).i.toNat + 2 ≤ 4095 := by decide
theorem witness_StoreRegistersBlock :
    (State.reset.setI 0x0FF0).i.toNat + (15 : Reg).val ≤ 4095 ∧ (State.reset.setI 0x0FFF).i.toNat + (0 : Reg).val ≤ 4095 ∧
    (15 : Reg) ≤ 15 ∧ State.reset.cfg.qMemInc = .inc ∧
    (withCfg (fun c => { c with qMemInc := .noinc }) State.reset).cfg.qMemInc = .noinc := by decide
theorem witness_LoadRegistersBlock :
    (State.reset.setI 0x0FF1).i.toNat + (14 : Reg).val ≤ 4095 ∧ (14 : Reg) ≤ 14 ∧ (14 : Reg) < 15 ∧
    State.reset.cfg.qMemInc = .inc ∧
    (withCfg (fun c => { c with qMemInc := .noinc }) State.reset).cfg.qMemInc = .noinc := by decide
theorem witness_StoreThenLoadRestoresRegisters :
    let s := filled.setI 0x0FF1
    s.i.toNat + (14 : Reg).val ≤ 4095 ∧ ∃ t u : State, exec (.stRegs 14) s = .next t ∧ u.mem = t.mem ∧
      u.cfg = t.cfg ∧ u.i = s.i ∧ u.v = Vector.replicate 16 0 ∧ (14 : Reg) ≤ 14 ∧ (14 : Reg) < 15 :=
  ⟨by decide, _, { State.reset with mem := _, i := 0x0FF1 }, rfl, rfl, rfl, rfl, rfl, by decide, by decide⟩
theorem witness_StoredWordIsFetchedNext :
    let s := (filled.setPc 0x0FFC).setI 0x0FFE
    1 ≤ (1 : Reg).val ∧ s.pc.toNat ≤ 4092 ∧ s.i = s.pc + 2 ∧ s.i.toNat + (1 : Reg).val ≤ 4095 ∧
      ∃ t, exec (.stRegs 1) s = .next t := ⟨by decide, by decide, by decide, by decide, _, rfl⟩
theorem witness_CanonicalMemoriesAreEqual :
    Memory.wf defaultFont [(0x50, 0x12), (0xFFF, 0x34)] ∧ ∀ a : Nat,
      Memory.read defaultFont [(0x50, 0x12), (0xFFF, 0x34)] a = Memory.read defaultFont [(0x50, 0x12), (0xFFF, 0x34)] a :=
  ⟨by decide, fun _ => rfl⟩
theorem witness_DrawFlipsSpriteCells :
    ((0 : Fin 16).val = 0 ∨ (State.reset.setI 0xFFFF).i.toNat + (0 : Fin 16).val - 1 ≤ 4095) ∧
    ((1 : Fin 16).val = 0 ∨ (State.reset.setI 0x0FFF).i.toNat + (1 : Fin 16).val - 1 ≤ 4095) ∧
    ((15 : Fin 16).val = 0 ∨ (filled.setI 0x0FF1).i.toNat + (15 : Fin 16).val - 1 ≤ 4095) ∧
    32 = filled.v[(0 : Reg)].toNat % 64 ∧ 1 = filled.v[(1 : Reg)].toNat % 32 ∧ (0 : Reg) ≠ Reg.vf := by decide
theorem witness_DrawTwiceRestoresDisplay :
    (0 : Reg) ≠ Reg.vf ∧ (1 : Reg) ≠ Reg.vf ∧
    ((1 : Fin 16).val = 0 ∨ (filled.setI 0x0FFF).i.toNat + (1 : Fin 16).val - 1 ≤ 4095) ∧
    (filled.setI 0x0FFF).disp = 0 ∧ ∃ t, exec (.drw 0 1 1) (filled.setI 0x0FFF) = .next t :=
  ⟨by decide, by decide, by decide, rfl, _, rfl⟩
theorem witness_KeySkipsTestLowNibble :
    (15 : Key).val = filled.v[(15 : Reg)].toNat % 16 ∧ (press [15] filled).key[(15 : Key)] = true ∧
    filled.key[(15 : Key)] = false := by decide
theorem witness_WaitForKeyRepolls :
    (∀ k : Key, State.reset.key[k] = false) ∧
    (press [12, 9] State.reset).key[(9 : Key)] = true ∧
    (∀ j : Key, j < 9 → (press [12, 9] State.reset).key[j] = false) ∧
    (press [0] State.reset).key[(0 : Key)] = true ∧ (∀ j : Key, j < 0 → (press [0] State.reset).key[j] = false) := by
  decide
theorem witness_TimerTickCountsBothDown :
    0 < { State.reset with dt := 1 }.dt.toNat ∧ State.reset.dt.toNat = 0 ∧
    0 < { State.reset with st := 255 }.st.toNat ∧ State.reset.st.toNat = 0 := by decide
theorem witness_TimerTickCountsBothDown_instruction :
    (∃ t, exec (.ldVxDt 0) { State.reset with dt := 1, st := 1 } = .next t) ∧
    (∀ x, Instr.ldVxDt 0 ≠ .ldDtVx x) ∧ ∀ x, Instr.ldVxDt 0 ≠ .ldStVx x := ⟨⟨_, rfl⟩, by simp, by simp⟩
/-- A timer tick and a step tick in turn: fair to both schedules. -/
def inTurn (n : Nat) : Event := if n % 2 = 0 then .timerTick else .stepTick 0

theorem fairToTimer_inTurn : fairToTimer inTurn := fun n => ⟨2 * n, by omega, by simp [inTurn]⟩

theorem fairToEngine_inTurn : fairToEngine inTurn :=
  fun n => ⟨2 * n + 1, 0, by omega, by simp [inTurn, Nat.add_mod]⟩

theorem isInterleaved_inTurn (n : Nat) : isInterleaved (inTurn n) = true := by
  unfold inTurn; split <;> rfl

theorem witness_TimersReachZeroAndStay :
    fairToTimer inTurn ∧ (∀ n, isInterleaved (inTurn n) = true) ∧
    { State.reset with fault := .memoryOob, dt := 255 }.fault ≠ .none ∧
    { State.reset.writeBytes 0x200 [0x12, 0x00] with dt := 255 }.endedNormally :=
  ⟨fairToTimer_inTurn, isInterleaved_inTurn, by decide, rfl, by decide, by decide⟩
theorem witness_TimersReachZeroAndStay_unfair :
    ∀ n : Nat, ∃ r : Byte, (fun _ : Nat => Event.stepTick 0) n = .stepTick r := fun _ => ⟨0, rfl⟩
theorem witness_SoundFollowsSoundTimer :
    (∃ t, exec (.ldStVx 0) filled = .next t ∧ t.st = 0xA0) ∧
    (∃ t, applyEvent .timerTick { State.reset with st := 1 } = .next t ∧ t.st = 0) ∧
    ∃ t, applyEvent .reset { State.reset with st := 1 } = .next t ∧ t.st = 0 :=
  ⟨⟨_, rfl, rfl⟩, ⟨_, rfl, rfl⟩, ⟨_, rfl, rfl⟩⟩
theorem witness_KeyEventsSetOneFlag :
    (press [15] State.reset).key[(15 : Key)] = true ∧ State.reset.key[(15 : Key)] = false ∧ (14 : Key) ≠ 15 := by decide
theorem witness_SchedulesShareNoState_timer :
    (∃ t, exec (.skp 0) (press [0] State.reset) = .next t) ∧
    ∀ x, Instr.skp 0 ≠ .ldVxDt x ∧ Instr.skp 0 ≠ .ldDtVx x ∧ Instr.skp 0 ≠ .ldStVx x := ⟨⟨_, rfl⟩, by simp⟩
theorem witness_SchedulesShareNoState_keys :
    (∃ t, exec (.ldVxDt 1) { State.reset with dt := 9 } = .next t) ∧
    ∀ x, Instr.ldVxDt 1 ≠ .skp x ∧ Instr.ldVxDt 1 ≠ .sknp x ∧ Instr.ldVxDt 1 ≠ .ldVxK x := ⟨⟨_, rfl⟩, by simp⟩
theorem witness_SchedulesShareNoState_schedule :
    fairToEngine inTurn ∧ ∀ n, isInterleaved (inTurn n) = true := ⟨fairToEngine_inTurn, isInterleaved_inTurn⟩
theorem witness_ResetGivesResetValues :
    (79 : Nat) < 80 ∧ ((0x04F : Nat) < 0x050 ∨ 0x09F < (0x04F : Nat)) ∧ ((0x0A0 : Nat) < 0x050 ∨ 0x09F < (0x0A0 : Nat)) := by
  decide
theorem witness_LoadPlacesRom :
    (rom 3584).length ≤ 3584 ∧ 3583 < (rom 3584).length ∧ ([] : List Byte).length ≤ 3584 ∧
    ¬(0x200 ≤ 0x1FF ∧ 0x1FF < 0x200 + (rom 3584).length) :=
  ⟨by rw [length_rom], by rw [length_rom]; omega, by decide, by omega⟩
theorem witness_OversizeLoadIsRefused : 3584 < (rom 3585).length := by rw [length_rom]; omega
theorem witness_ExactlyTheListedFaults :
    raisedBy (.call 0) fullStack = some .stackOverflow ∧ raisedBy .ret State.reset = some .stackUnderflow ∧
    raisedBy (.drw 0 0 1) (State.reset.setI 0x1000) = some .memoryOob ∧
    raisedBy (.ldB 0) (State.reset.setI 0x0FFE) = some .memoryOob ∧
    raisedBy (.stRegs 15) (State.reset.setI 0x0FF1) = some .memoryOob ∧
    raisedBy (.ldRegs 15) (State.reset.setI 0xFFFF) = some .memoryOob ∧
    raisedBy (.drw 0 0 0) (State.reset.setI 0xFFFF) = none ∧ raisedBy (.stRegs 15) (State.reset.setI 0x0FF0) = none := by
  decide
theorem witness_FaultLatchIsSticky :
    let s := { State.reset with fault := .memoryOob }
    s.fault ≠ .none ∧ (∃ t, applyEvent .timerTick s = .next t) ∧ Event.timerTick ≠ .reset ∧
      (∀ rom, Event.timerTick ≠ .load rom) ∧ (∃ t, applyEvent .reset s = .next t) ∧
      ∃ t, applyEvent (.load [0x12]) s = .next t :=
  ⟨by decide, ⟨_, rfl⟩, by simp, by simp, ⟨_, rfl⟩, ⟨_, rfl⟩⟩
/-- A no-op meets the premise of every clause but that of a raise. -/
theorem witness_OnlyNamedInstructionsWrite :
    let i := Instr.nop8 0x128
    (∃ t, exec i filled = .next t) ∧ writesSomeReg i filled.cfg = false ∧
      ((∀ nnn, i ≠ .ldI nnn) ∧ ∀ x, i ≠ .addI x ∧ i ≠ .ldF x ∧ i ≠ .stRegs x ∧ i ≠ .ldRegs x) ∧
      movesPc i = false ∧ raisedBy i filled = none ∧ ((∀ nnn, i ≠ .call nnn) ∧ i ≠ .ret) ∧
      ((∀ x, i ≠ .ldB x) ∧ ∀ x, i ≠ .stRegs x) ∧ (i ≠ .cls ∧ ∀ x y n, i ≠ .drw x y n) ∧
      (∀ x, i ≠ .ldDtVx x) ∧ (∀ x, i ≠ .ldStVx x) ∧ ∀ x kk, i ≠ .rnd x kk := by
  refine ⟨⟨_, rfl⟩, rfl, ?_⟩
  simp [movesPc, raisedBy]
/-- The premise of memory by an instruction that reads it, of `I` by one that stores at it, and of a raise. -/
theorem witness_OnlyNamedInstructionsWrite_memory :
    (∃ t, exec (.ldRegs 15) (filled.setI 0x0300) = .next t) ∧ (∀ x, Instr.ldRegs 15 ≠ .ldB x) ∧
    (∀ x, Instr.ldRegs 15 ≠ .stRegs x) ∧ (∃ t, exec (.ldB 15) (filled.setI 0x0300) = .next t) ∧
    (∀ nnn, Instr.ldB 15 ≠ .ldI nnn) ∧
    (∀ x, Instr.ldB 15 ≠ .addI x ∧ Instr.ldB 15 ≠ .ldF x ∧ Instr.ldB 15 ≠ .stRegs x ∧ Instr.ldB 15 ≠ .ldRegs x) ∧
    (∃ t, exec (.ldB 15) (filled.setI 0x0FFE) = .next t) ∧ raisedBy (.ldB 15) (filled.setI 0x0FFE) ≠ none := by
  refine ⟨⟨_, rfl⟩, by simp, by simp, ⟨_, rfl⟩, by simp, by simp, ⟨_, rfl⟩, by decide⟩
theorem witness_FlagWrittenOnlyByItsOpcodes :
    (∃ t, exec (.shrReg 0 1) filled = .next t) ∧ writesReg (.shrReg 0 1) 2 = false ∧ (2 : Reg) ≠ Reg.vf ∧
    definesFlag (.shrReg 0 1) filled.cfg = true ∧ flagLost (.shrReg 0 1) = false ∧
    raisedBy (.shrReg 0 1) filled = none ∧
    (∃ t, exec (.addImm 0 1) filled = .next t) ∧ writesReg (.addImm 0 1) Reg.vf = false ∧
    definesFlag (.addImm 0 1) filled.cfg = false :=
  ⟨⟨_, rfl⟩, by decide, by decide, by decide, by decide, by decide, ⟨_, rfl⟩, by decide, by decide⟩
/-- F2: the self-jump at 0x200. -/
theorem witness_SelfJumpEndsTheRun :
    let s := State.reset.writeBytes 0x200 [0x12, 0x00]
    s.endedNormally ∧ (∃ t, applyEvent .timerTick s = .next t) ∧ ∃ t, applyEvent (.keyPress 3) s = .next t :=
  ⟨⟨rfl, by decide, by decide⟩, ⟨_, rfl⟩, ⟨_, rfl⟩⟩
theorem witness_StepKeepsMemoryCanonical :
    let s := (filled.writeBytes 0x200 [0xFF, 0x55]).setI 0x0050
    s.mem.wf s.cfg.font ∧ ∃ t, step s = .next t := ⟨by decide, _, rfl⟩
/-- The largest counter and the largest stack entries. -/
theorem witness_ProgramCounterNeverWraps :
    let s := fullStack.setPc 0x10FE
    s.pcBounded ∧ ∃ t, step s = .next t := ⟨⟨by decide, by decide⟩, _, rfl⟩
/-- A slot above `SP` differs; the live one agrees. -/
theorem witness_DeadStackSlotsAreUnobservable :
    let s := (stack [0x0202] State.reset).writeBytes 0x200 [0x00, 0xEE]
    let u := { s with stk := (Vector.replicate 16 0xBEEF).set 0 0x0202 }
    s.sameButDeadSlots u ∧ u.stk[1] ≠ s.stk[1] ∧ ∃ t, step s = .next t :=
  ⟨⟨rfl, by decide⟩, by decide, _, rfl⟩
/-- The same, for a refusal. -/
theorem witness_DeadStackSlotsAreUnobservable_refused :
    (loading 3585).sameButDeadSlots { loading 3585 with stk := Vector.replicate 16 0xBEEF } ∧
      step (loading 3585) = .refused .romTooLong :=
  ⟨⟨rfl, fun j _ hs => absurd hs (Nat.not_lt_zero j)⟩, step_loading_refused _ (by omega)⟩

end Sys2Proof.Tests
end

/-! Proofs of the scope family (00_scope.md R7, R8; 60_exceptions.md R213): which event a step takes, and what the
schedules of timers, keys and instructions leave of each other. -/

namespace Sys2Proof.Machine

/-! ### The event a step takes -/

/-- Settles O9: one clause per form of the schedule. -/
theorem stepTakesFirstPendingEvent : Obligations.StepTakesFirstPendingEvent := fun _ =>
  ⟨fun _ _ hpending => step_pending hpending,
    step_idle,
    fun _ _ hpending hlater => step_scheduled (State.nextScheduled_cycle hpending hlater),
    fun _ hpending hlater => step_scheduled (State.nextScheduled_free hpending hlater)⟩

/-! ### What timer ticks and key events have in common

Each is a change of the timers and the keypad alone, by functions of their own old values: `State.mapInputs`. That an
instruction commutes with such a change is then proved once for both. -/

/-- The timers and the keypad changed by functions of their own, everything else as it was. -/
def State.mapInputs (g h : Byte → Byte) (keys : Vector Bool 16 → Vector Bool 16) (s : State) : State :=
  { s with dt := g s.dt, st := h s.st, key := keys s.key }

theorem State.timerTick_eq_mapInputs (s : State) : s.timerTick = s.mapInputs countDown countDown id := rfl

theorem State.setKey_eq_mapInputs (s : State) (k : Key) (down : Bool) :
    s.setKey k down = s.mapInputs id id (fun keys => keys.set k.val down k.isLt) := rfl

/-- A change of the next state that a result answers, if it answers one. -/
def onNext (f : State → State) : Result → Result
  | .next t    => .next (f t)
  | .fault r   => .fault r
  | .refused r => .refused r

/-! ### The operations commute with a change of the timers and the keypad -/

section
variable (g h : Byte → Byte) (keys : Vector Bool 16 → Vector Bool 16) (s : State)

theorem State.readBytes_mapInputs (a n : Nat) : (s.mapInputs g h keys).readBytes a n = s.readBytes a n := by
  induction n generalizing a with
  | zero => rfl
  | succ n ih => exact congrArg (s.readByte a :: ·) (ih (a + 1))

theorem State.writeBytes_mapInputs (a : Nat) (ws : List Byte) :
    (s.mapInputs g h keys).writeBytes a ws = (s.writeBytes a ws).mapInputs g h keys := by
  induction ws generalizing s a with
  | nil => rfl
  | cons w ws ih => exact ih (s.writeByte a w) (a + 1)

theorem State.loadRegs_mapInputs (a n : Nat) : (s.mapInputs g h keys).loadRegs a n = s.loadRegs a n := by
  induction n with
  | zero => rfl
  | succ n ih => exact congrArg (fun v => v.setIfInBounds n (s.readByte (a + n))) ih

theorem State.skipIf_mapInputs (c : Bool) :
    (s.mapInputs g h keys).skipIf c = (s.skipIf c).mapInputs g h keys := by
  cases c <;> rfl

theorem accessOrRaise_mapInputs (n : Nat) {t u : State} (hu : u = t.mapInputs g h keys) :
    accessOrRaise (s.mapInputs g h keys) n u = onNext (State.mapInputs g h keys) (accessOrRaise s n t) := by
  unfold accessOrRaise
  rw [apply_ite (onNext _), hu]
  rfl

/-! ### The instructions that branch or loop -/

theorem execRet_mapInputs :
    execRet (s.mapInputs g h keys) = onNext (State.mapInputs g h keys) (execRet s) := by
  unfold execRet
  rw [apply_ite (onNext _)]
  rfl

theorem execCall_mapInputs (nnn : BitVec 12) :
    execCall nnn (s.mapInputs g h keys) = onNext (State.mapInputs g h keys) (execCall nnn s) := by
  unfold execCall
  rw [apply_ite (onNext _)]
  rfl

theorem next_skipIf_mapInputs (c : Bool) :
    Host.Outcome.next ((s.mapInputs g h keys).advance.skipIf c) =
      onNext (State.mapInputs g h keys) (.next (s.advance.skipIf c)) :=
  congrArg Host.Outcome.next (State.skipIf_mapInputs g h keys s.advance c)

theorem execDrw_mapInputs (x y : Reg) (n : Fin 16) :
    execDrw x y n (s.mapInputs g h keys) = onNext (State.mapInputs g h keys) (execDrw x y n s) := by
  unfold execDrw
  rw [State.readBytes_mapInputs]
  exact accessOrRaise_mapInputs g h keys s n.val rfl

theorem execAddI_mapInputs (x : Reg) :
    execAddI x (s.mapInputs g h keys) = onNext (State.mapInputs g h keys) (execAddI x s) := by
  have hcfg : (s.mapInputs g h keys).cfg = s.cfg := rfl
  unfold execAddI
  rw [hcfg]
  cases s.cfg.qAddiVf <;> rfl

theorem execLdB_mapInputs (x : Reg) :
    execLdB x (s.mapInputs g h keys) = onNext (State.mapInputs g h keys) (execLdB x s) :=
  accessOrRaise_mapInputs g h keys s 3 (State.writeBytes_mapInputs g h keys s.advance _ _)

theorem execStRegs_mapInputs (x : Reg) :
    execStRegs x (s.mapInputs g h keys) = onNext (State.mapInputs g h keys) (execStRegs x s) :=
  accessOrRaise_mapInputs g h keys s (x.val + 1)
    (congrArg (State.setI · _) (State.writeBytes_mapInputs g h keys s.advance _ _))

theorem execLdRegs_mapInputs (x : Reg) :
    execLdRegs x (s.mapInputs g h keys) = onNext (State.mapInputs g h keys) (execLdRegs x s) := by
  unfold execLdRegs
  rw [State.loadRegs_mapInputs]
  exact accessOrRaise_mapInputs g h keys s (x.val + 1) rfl

theorem execLdVxK_mapInputs (x : Reg) :
    execLdVxK x (s.mapInputs g h id) = onNext (State.mapInputs g h id) (execLdVxK x s) := by
  have hkey : (s.mapInputs g h id).lowestKey = s.lowestKey := rfl
  unfold execLdVxK
  rw [hkey]
  cases s.lowestKey <;> rfl

end

/-- An instruction commutes with a change of the timers that it does not name and of the keypad that it does not
read. -/
theorem exec_mapInputs (g h : Byte → Byte) (keys : Vector Bool 16 → Vector Bool 16) (i : Instr) (s : State)
    (htimers : (g = id ∧ h = id) ∨ ∀ x, i ≠ .ldVxDt x ∧ i ≠ .ldDtVx x ∧ i ≠ .ldStVx x)
    (hkeys : keys = id ∨ ∀ x, i ≠ .skp x ∧ i ≠ .sknp x ∧ i ≠ .ldVxK x) :
    exec i (s.mapInputs g h keys) = onNext (State.mapInputs g h keys) (exec i s) := by
  cases i with
  | ret => exact execRet_mapInputs ..
  | call nnn => exact execCall_mapInputs ..
  | seImm _ _ | sneImm _ _ | seReg _ _ | sneReg _ _ => exact next_skipIf_mapInputs ..
  | drw x y n => exact execDrw_mapInputs ..
  | addI x => exact execAddI_mapInputs ..
  | ldB x => exact execLdB_mapInputs ..
  | stRegs x => exact execStRegs_mapInputs ..
  | ldRegs x => exact execLdRegs_mapInputs ..
  | skp x | sknp x =>
    obtain rfl : keys = id := hkeys.resolve_right fun hne => by simpa using hne x
    exact next_skipIf_mapInputs ..
  | ldVxK x =>
    obtain rfl : keys = id := hkeys.resolve_right fun hne => by simpa using hne x
    exact execLdVxK_mapInputs ..
  | ldVxDt x | ldDtVx x | ldStVx x =>
    obtain ⟨rfl, rfl⟩ : g = id ∧ h = id := htimers.resolve_right fun hne => by simpa using hne x
    rfl
  | cls | jp _ | ldImm _ _ | addImm _ _ | ldReg _ _ | orReg _ _ | andReg _ _ | xorReg _ _ | addReg _ _
  | subReg _ _ | shrReg _ _ | subnReg _ _ | shlReg _ _ | ldI _ | jpV0 _ | rnd _ _ | ldF _
  | nop0 _ | nop5 _ | nop8 _ | nop9 _ | nopE _ | nopF _ => rfl

theorem exec_timerTick {i : Instr} {s t : State} (hexec : exec i s = .next t)
    (hi : ∀ x, i ≠ .ldVxDt x ∧ i ≠ .ldDtVx x ∧ i ≠ .ldStVx x) : exec i s.timerTick = .next t.timerTick := by
  rw [State.timerTick_eq_mapInputs, exec_mapInputs _ _ _ _ _ (.inr hi) (.inl rfl), hexec]
  rfl

theorem exec_setKey {i : Instr} {s t : State} (hexec : exec i s = .next t)
    (hi : ∀ x, i ≠ .skp x ∧ i ≠ .sknp x ∧ i ≠ .ldVxK x) (k : Key) (down : Bool) :
    exec i (s.setKey k down) = .next (t.setKey k down) := by
  rw [State.setKey_eq_mapInputs, exec_mapInputs _ _ _ _ _ (.inl ⟨rfl, rfl⟩) (.inr hi), hexec]
  rfl

/-! ### The events before the first step tick -/

theorem timerOrKey_of_isInterleaved {e : Event} (he : isInterleaved e = true) (hne : ∀ r, e ≠ .stepTick r) :
    e = .timerTick ∨ isKeyEvent e = true := by
  cases e with
  | stepTick r => exact absurd rfl (hne r)
  | timerTick => exact .inl rfl
  | keyPress _ | keyRelease _ => exact .inr rfl
  | reset | load _ => exact absurd he Bool.false_ne_true

/-- Timer ticks and key events are never refused, and change the timers and the keypad alone. -/
theorem applyEvent_timerOrKey {e : Event} (he : e = .timerTick ∨ isKeyEvent e = true) (s : State) :
    ∃ u, applyEvent e s = .next u ∧ u = { s with dt := u.dt, st := u.st, key := u.key } := by
  cases e with
  | timerTick => exact ⟨s.timerTick, rfl, rfl⟩
  | keyPress k => exact ⟨s.setKey k true, rfl, rfl⟩
  | keyRelease k => exact ⟨s.setKey k false, rfl, rfl⟩
  | reset | load _ | stepTick _ => simp [isKeyEvent] at he

theorem runEvents_timerOrKey {σ : Nat → Event} (s : State) (n : Nat)
    (hσ : ∀ m < n, σ m = .timerTick ∨ isKeyEvent (σ m) = true) :
    ∃ u, runEvents σ n s = .next u ∧ u = { s with dt := u.dt, st := u.st, key := u.key } := by
  induction n with
  | zero => exact ⟨s, rfl, rfl⟩
  | succ n ih =>
    obtain ⟨t, hrun, ht⟩ := ih fun m hm => hσ m (hm.trans n.lt_succ_self)
    obtain ⟨u, happly, hu⟩ := applyEvent_timerOrKey (hσ n n.lt_succ_self) t
    exact ⟨u, (runEvents_succ hrun).trans happly, by rw [hu, ht]⟩

/-- Along a schedule that is fair to the engine a first step tick comes. -/
theorem exists_first_stepTick {σ : Nat → Event} (hfair : fairToEngine σ) :
    ∃ n r, σ n = .stepTick r ∧ ∀ m < n, ∀ r, σ m ≠ .stepTick r := by
  classical
  have hex : ∃ n r, σ n = .stepTick r := by
    obtain ⟨n, r, -, hn⟩ := hfair 0
    exact ⟨n, r, hn⟩
  obtain ⟨r, hr⟩ := Nat.find_spec hex
  exact ⟨Nat.find hex, r, hr, fun m hm r hr => Nat.find_min hex hm ⟨r, hr⟩⟩

/-- Settles O47: an instruction commutes with a change of inputs that it does not name, and only such changes come
before the first step tick. -/
theorem schedulesShareNoState : Obligations.SchedulesShareNoState := by
  refine ⟨fun _ _ _ hexec => ⟨exec_timerTick hexec, exec_setKey hexec⟩, fun σ s hfair hint => ?_⟩
  obtain ⟨n, r, hn, hfirst⟩ := exists_first_stepTick hfair
  have hbefore : ∀ m < n, σ m = .timerTick ∨ isKeyEvent (σ m) = true :=
    fun m hm => timerOrKey_of_isInterleaved (hint m) (hfirst m hm)
  obtain ⟨u, hrun, hu⟩ := runEvents_timerOrKey s n hbefore
  exact ⟨n, r, u, hn, hbefore, hrun, hu, by rw [runEvents_succ hrun, hn]⟩

end Sys2Proof.Machine

/-! Proofs of the state family (10_state.md): what an instruction writes and what it leaves alone, the bound on the
program counter, the dead stack slots, the fault latch and the reset values. -/

namespace Sys2Proof.Machine

/-! ### The table of who raises what, in terms of the operations (60_exceptions.md R201) -/

/-- What an access to the `n` bytes from `I` raises. -/
def State.accessFault (s : State) (n : Nat) : Option FaultLatch :=
  if spanOob s.i.toNat n then some .memoryOob else none

theorem accessOrRaise_of_fault {s : State} {n : Nat} {f : FaultLatch} (h : s.accessFault n = some f) (t : State) :
    accessOrRaise s n t = .next { s with fault := f } := by
  simp only [State.accessFault, Option.ite_none_right_eq_some, Option.some.injEq] at h
  obtain ⟨hoob, rfl⟩ := h
  simp [accessOrRaise, hoob, State.raise]

theorem accessOrRaise_of_no_fault {s : State} {n : Nat} (h : s.accessFault n = none) (t : State) :
    accessOrRaise s n t = .next t := by
  have hoob : spanOob s.i.toNat n = false := by simpa [State.accessFault] using h
  simp [accessOrRaise, hoob]

theorem raisedBy_drw (x y : Reg) (n : Fin 16) (s : State) : raisedBy (.drw x y n) s = s.accessFault n.val := by
  simp [raisedBy, State.accessFault, spanOob]

theorem raisedBy_ldB (x : Reg) (s : State) : raisedBy (.ldB x) s = s.accessFault 3 := by
  simp [raisedBy, State.accessFault, spanOob]

theorem raisedBy_stRegs (x : Reg) (s : State) : raisedBy (.stRegs x) s = s.accessFault (x.val + 1) := by
  simp [raisedBy, State.accessFault, spanOob]

theorem raisedBy_ldRegs (x : Reg) (s : State) : raisedBy (.ldRegs x) s = s.accessFault (x.val + 1) := by
  simp [raisedBy, State.accessFault, spanOob]

/-- A raise changes `FAULT` alone (R202). -/
theorem exec_of_raisedBy {i : Instr} {s : State} {f : FaultLatch} (h : raisedBy i s = some f) :
    exec i s = .next { s with fault := f } := by
  cases i with
  | call nnn =>
    simp only [raisedBy, Option.ite_none_right_eq_some, Option.some.injEq] at h
    obtain ⟨hsp, rfl⟩ := h
    simp [exec, execCall, hsp, State.raise]
  | ret =>
    simp only [raisedBy, Option.ite_none_right_eq_some, Option.some.injEq] at h
    obtain ⟨hsp, rfl⟩ := h
    simp [exec, execRet, hsp, State.raise]
  | drw x y n => exact accessOrRaise_of_fault (raisedBy_drw x y n s ▸ h) _
  | ldB x => exact accessOrRaise_of_fault (raisedBy_ldB x s ▸ h) _
  | stRegs x => exact accessOrRaise_of_fault (raisedBy_stRegs x s ▸ h) _
  | ldRegs x => exact accessOrRaise_of_fault (raisedBy_ldRegs x s ▸ h) _
  | _ => simp [raisedBy] at h

/-! ### What each instruction that does not raise does -/

theorem execCall_of_not_full {s : State} (h : s.sp.val ≠ 16) (nnn : BitVec 12) :
    execCall nnn s = .next ((s.advance.push s.advance.pc).setPc (nnn.setWidth 16)) := by
  simp [execCall, h]

theorem execRet_of_not_empty {s : State} (h : s.sp.val ≠ 0) : execRet s = .next s.advance.popPc := by
  simp [execRet, h]

theorem execAddI_off {s : State} (h : s.cfg.qAddiVf = .off) (x : Reg) :
    execAddI x s = .next (s.advance.setI (s.i + s.v[x].setWidth 16)) := by
  simp [execAddI, h]

theorem execAddI_on {s : State} (h : s.cfg.qAddiVf = .on) (x : Reg) :
    execAddI x s =
      .next ((s.advance.setI (s.i + s.v[x].setWidth 16)).setVF (indexOverflowFlag s.cfg s.i s.v[x])) := by
  simp [execAddI, h]

theorem execLdVxK_of_no_key {s : State} (h : s.lowestKey = none) (x : Reg) :
    execLdVxK x s = .next (s.advance.setPc s.pc) := by
  simp [execLdVxK, h]

theorem execLdVxK_of_key {s : State} {k : Key} (h : s.lowestKey = some k) (x : Reg) :
    execLdVxK x s = .next (s.advance.setReg x (BitVec.ofNat 8 k.val)) := by
  simp [execLdVxK, h]

/-- 10_state.md section 1, the column "written by", element by element: what `t`, the answer of instruction `i` in `s`,
has from `s` unless the instruction is named there. -/
structure WritesOnlyNamed (i : Instr) (s t : State) : Prop where
  key      : t.key = s.key
  cfg      : t.cfg = s.cfg
  pending  : t.pending = s.pending
  later    : t.later = s.later
  v        : writesSomeReg i s.cfg = false → t.v = s.v
  index    : (∀ nnn, i ≠ .ldI nnn) → (∀ x, i ≠ .addI x ∧ i ≠ .ldF x ∧ i ≠ .stRegs x ∧ i ≠ .ldRegs x) → t.i = s.i
  pc       : movesPc i = false → raisedBy i s = none → t.pc = s.pc + 2
  pcRaised : raisedBy i s ≠ none → t.pc = s.pc
  sp       : (∀ nnn, i ≠ .call nnn) → i ≠ .ret → t.sp = s.sp
  stk      : (∀ nnn, i ≠ .call nnn) → t.stk = s.stk
  mem      : (∀ x, i ≠ .ldB x) → (∀ x, i ≠ .stRegs x) → t.mem = s.mem
  disp     : i ≠ .cls → (∀ x y n, i ≠ .drw x y n) → t.disp = s.disp
  dt       : (∀ x, i ≠ .ldDtVx x) → t.dt = s.dt
  st       : (∀ x, i ≠ .ldStVx x) → t.st = s.st
  fault    : raisedBy i s = none → t.fault = s.fault
  random   : (∀ x kk, i ≠ .rnd x kk) → t.rnd = s.rnd ∧ t.draws = s.draws

theorem exec_of_not_raised {i : Instr} {s : State} (hr : raisedBy i s = none) :
    ∃ t, exec i s = .next t ∧ WritesOnlyNamed i s t := by
  cases i with
  | call nnn =>
    have hsp : s.sp.val ≠ 16 := by simpa [raisedBy] using hr
    exact ⟨_, execCall_of_not_full hsp nnn, by constructor <;> simp [writesSomeReg, movesPc, hr]⟩
  | ret =>
    have hsp : s.sp.val ≠ 0 := by simpa [raisedBy] using hr
    exact ⟨_, execRet_of_not_empty hsp, by constructor <;> simp [writesSomeReg, movesPc, hr]⟩
  | drw x y n =>
    exact ⟨_, accessOrRaise_of_no_fault (raisedBy_drw x y n s ▸ hr) _,
      by constructor <;> simp [writesSomeReg, movesPc, hr]⟩
  | ldB x =>
    exact ⟨_, accessOrRaise_of_no_fault (raisedBy_ldB x s ▸ hr) _,
      by constructor <;> simp [writesSomeReg, movesPc, hr]⟩
  | stRegs x =>
    exact ⟨_, accessOrRaise_of_no_fault (raisedBy_stRegs x s ▸ hr) _,
      by constructor <;> simp [writesSomeReg, movesPc, hr]⟩
  | ldRegs x =>
    exact ⟨_, accessOrRaise_of_no_fault (raisedBy_ldRegs x s ▸ hr) _,
      by constructor <;> simp [writesSomeReg, movesPc, hr]⟩
  | addI x =>
    cases hq : s.cfg.qAddiVf with
    | off => exact ⟨_, execAddI_off hq x, by constructor <;> simp [movesPc, hr]⟩
    | on => exact ⟨_, execAddI_on hq x, by constructor <;> simp [writesSomeReg, movesPc, hr, hq]⟩
  | ldVxK x =>
    cases hk : s.lowestKey with
    | none => exact ⟨_, execLdVxK_of_no_key hk x, by constructor <;> simp [movesPc, hr]⟩
    | some k => exact ⟨_, execLdVxK_of_key hk x, by constructor <;> simp [writesSomeReg, movesPc, hr]⟩
  | _ => exact ⟨_, rfl, by constructor <;> simp [writesSomeReg, movesPc, hr]⟩

/-- Every instruction answers a next state (the fatal conditions too: log 5). -/
theorem exec_next (i : Instr) (s : State) : ∃ t, exec i s = .next t := by
  cases hr : raisedBy i s with
  | some f => exact ⟨_, exec_of_raisedBy hr⟩
  | none => exact (exec_of_not_raised hr).imp fun _ h => h.1

theorem exec_writesOnlyNamed {i : Instr} {s t : State} (h : exec i s = .next t) : WritesOnlyNamed i s t := by
  cases hr : raisedBy i s with
  | some f =>
    obtain rfl : { s with fault := f } = t := by simpa using (exec_of_raisedBy hr).symm.trans h
    constructor <;> simp [hr]
  | none =>
    obtain ⟨u, hu, hw⟩ := exec_of_not_raised hr
    obtain rfl : u = t := by simpa using hu.symm.trans h
    exact hw

/-- Settles O54: what exec can do, element by element. -/
theorem onlyNamedInstructionsWrite : Obligations.OnlyNamedInstructionsWrite := fun _ _ _ h =>
  have w := exec_writesOnlyNamed h
  ⟨w.key, w.cfg, w.pending, w.later, w.v, w.index, w.pc, w.pcRaised, w.sp, w.stk, w.mem, w.disp, w.dt, w.st, w.fault,
    w.random⟩


/-! ### Registers and the flag -/

theorem State.getElem_setReg_of_ne {s : State} {x r : Reg} (h : r ≠ x) (w : Byte) : (s.setReg x w).v[r] = s.v[r] :=
  (State.getElem_setReg s x r w).trans (if_neg h)

theorem State.getElem_setVF_of_ne {s : State} {r : Reg} (h : r ≠ Reg.vf) (b : Bool) : (s.setVF b).v[r] = s.v[r] :=
  State.getElem_setReg_of_ne h _

/-- A flag is 0 or 1 (10_state.md R21). -/
theorem eq_zero_or_one_of_eq_flag {w : Byte} {b : Bool} (h : w = if b then 1 else 0) : w = 0 ∨ w = 1 := by
  cases b
  · exact .inl h
  · exact .inr h

theorem State.setVF_vf (s : State) (b : Bool) : (s.setVF b).v[Reg.vf] = if b then 1 else 0 :=
  (State.getElem_setVF s b Reg.vf).trans (if_pos rfl)

theorem resultThenFlag_regs {s t : State} {x : Reg} {w : Byte} {b : Bool} (h : resultThenFlag s x w b = .next t) :
    (∀ r : Reg, r ≠ x → r ≠ Reg.vf → t.v[r] = s.v[r]) ∧ (t.v[Reg.vf] = 0 ∨ t.v[Reg.vf] = 1) := by
  obtain ⟨u, hu, hvf, -, hother, -⟩ := resultThenFlag_eq s x w b
  obtain rfl : u = t := by simpa using hu.symm.trans h
  exact ⟨hother, eq_zero_or_one_of_eq_flag hvf⟩

theorem flagThenResult_regs {s t : State} {x : Reg} {w : Byte} {b : Bool} (h : flagThenResult s x w b = .next t) :
    (∀ r : Reg, r ≠ x → r ≠ Reg.vf → t.v[r] = s.v[r]) ∧ (x ≠ Reg.vf → t.v[Reg.vf] = 0 ∨ t.v[Reg.vf] = 1) := by
  obtain ⟨u, hu, -, hvf, hother, -⟩ := flagThenResult_eq s x w b
  obtain rfl : u = t := by simpa using hu.symm.trans h
  exact ⟨hother, fun hx => eq_zero_or_one_of_eq_flag (hvf hx)⟩

theorem exec_keeps_reg {i : Instr} {s t : State} {r : Reg} (h : exec i s = .next t) (hw : writesReg i r = false)
    (hflag : r = Reg.vf → definesFlag i s.cfg = false) : t.v[r] = s.v[r] := by
  cases i with
  | ldImm x _ | addImm x _ | ldReg x _ | orReg x _ | andReg x _ | xorReg x _ | rnd x _ | ldVxDt x =>
    cases h
    exact State.getElem_setReg_of_ne (by simpa [writesReg] using hw) _
  | addReg x y =>
    exact (resultThenFlag_regs h).1 r (by simpa [writesReg] using hw) fun e => by simpa [definesFlag] using hflag e
  | subReg x _ | shrReg x _ | subnReg x _ | shlReg x _ =>
    exact (flagThenResult_regs h).1 r (by simpa [writesReg] using hw) fun e => by simpa [definesFlag] using hflag e
  | drw x y n =>
    obtain ⟨-, rfl⟩ | ⟨-, rfl⟩ := accessOrRaise_cases _ _ _ _ h
    · rfl
    · exact State.getElem_setVF_of_ne (fun e => by simpa [definesFlag] using hflag e) _
  | ldVxK x =>
    cases hk : s.lowestKey with
    | none => cases (execLdVxK_of_no_key hk x).symm.trans h; rfl
    | some k =>
      cases (execLdVxK_of_key hk x).symm.trans h
      exact State.getElem_setReg_of_ne (by simpa [writesReg] using hw) _
  | addI x =>
    cases hq : s.cfg.qAddiVf with
    | off => cases (execAddI_off hq x).symm.trans h; rfl
    | on =>
      cases (execAddI_on hq x).symm.trans h
      exact State.getElem_setVF_of_ne (fun e => by simpa [definesFlag, hq] using hflag e) _
  | ldRegs x =>
    obtain ⟨-, rfl⟩ | ⟨-, rfl⟩ := accessOrRaise_cases _ _ _ _ h
    · rfl
    · have hr : ¬r.val < x.val + 1 := by simpa [writesReg, Nat.lt_succ_iff] using hw
      exact (State.getElem_loadRegs s _ _ r.val r.isLt).trans (if_neg hr)
  | _ => exact congrArg (·[r]) ((exec_writesOnlyNamed h).v rfl)

theorem exec_flag_is_bit {i : Instr} {s t : State} (h : exec i s = .next t) (hdef : definesFlag i s.cfg = true)
    (hkept : flagLost i = false) (hr : raisedBy i s = none) : t.v[Reg.vf] = 0 ∨ t.v[Reg.vf] = 1 := by
  cases i with
  | addReg x y => exact (resultThenFlag_regs h).2
  | subReg x _ | shrReg x _ | subnReg x _ | shlReg x _ =>
    exact (flagThenResult_regs h).2 (by simpa [flagLost] using hkept)
  | drw x y n =>
    cases (accessOrRaise_of_no_fault (raisedBy_drw x y n s ▸ hr) _).symm.trans h
    exact eq_zero_or_one_of_eq_flag (State.setVF_vf _ _)
  | addI x =>
    have hq : s.cfg.qAddiVf = .on := by simpa [definesFlag] using hdef
    cases (execAddI_on hq x).symm.trans h
    exact eq_zero_or_one_of_eq_flag (State.setVF_vf _ _)
  | _ => simp [definesFlag] at hdef

/-- Settles O55: the frame of the registers, then the range of the flag. -/
theorem flagWrittenOnlyByItsOpcodes : Obligations.FlagWrittenOnlyByItsOpcodes := fun _ _ _ h =>
  ⟨fun _ => exec_keeps_reg h, exec_flag_is_bit h⟩

/-! ### The program counter and the live stack entries (10_state.md R23, 40_flow.md R101) -/

/-- The bound is one on `PC`, `SP` and the stack alone. -/
theorem State.pcBounded_of_stack_eq {s t : State} (hs : s.pcBounded) (hsp : t.sp = s.sp) (hstk : t.stk = s.stk)
    (hpc : t.pc.toNat ≤ 0x10FE) : t.pcBounded := by
  refine ⟨hpc, ?_⟩
  rw [hsp, hstk]
  exact hs.2

theorem State.pcBounded_resetWith (cfg : Config) : (State.resetWith cfg).pcBounded :=
  ⟨by simp [State.resetWith], fun j _ hj => absurd hj (Nat.not_lt_zero j)⟩

/-- The fetch advance of a step that found both bytes of its instruction (40_flow.md R100). -/
theorem toNat_add_two_le {pc : Word} (h : pc.toNat ≤ 4094) : (pc + 2).toNat ≤ 4096 := by bv_omega

theorem State.toNat_pc_skipIf_le {s : State} (h : s.pc.toNat ≤ 4094) (c : Bool) :
    (s.advance.skipIf c).pc.toNat ≤ 0x10FE := by
  cases c <;> simp <;> bv_omega

theorem State.pcBounded_advance {s : State} (hs : s.pcBounded) (h : s.pc.toNat ≤ 4094) : s.advance.pcBounded :=
  State.pcBounded_of_stack_eq hs rfl rfl ((toNat_add_two_le h).trans (by decide))

/-- R104's sum is at most 0xFFF + 0xFF. -/
theorem toNat_jumpTarget_le (nnn : BitVec 12) (w : Byte) :
    (nnn.setWidth 16 + w.setWidth 16 : Word).toNat ≤ 0x10FE := by bv_omega

theorem State.pcBounded_push {s : State} (hs : s.pcBounded) {w p : Word} (hw : w.toNat ≤ 4096)
    (hp : p.toNat ≤ 0x10FE) : ((s.push w).setPc p).pcBounded := by
  refine ⟨hp, fun j hj hlive => ?_⟩
  have hlive' : j < s.sp.val + 1 := by simp at hlive; omega
  have hget : ((s.push w).setPc p).stk[j] = if s.sp.val = j then w else s.stk[j] := by
    simp [Vector.getElem_setIfInBounds]
  rw [hget]
  split
  · exact hw
  · exact hs.2 j hj (by omega)

theorem State.pcBounded_popPc {s : State} (hs : s.pcBounded) (h : s.sp.val ≠ 0) : s.popPc.pcBounded :=
  ⟨(hs.2 _ (by omega) (by omega)).trans (by decide), fun j hj hlive => hs.2 j hj (by simp at hlive; omega)⟩

/-- An instruction that could be fetched keeps the bound. -/
theorem exec_keeps_pcBounded {i : Instr} {s t : State} (hs : s.pcBounded) (hfetch : s.pc.toNat ≤ 4094)
    (h : exec i s = .next t) : t.pcBounded := by
  have w := exec_writesOnlyNamed h
  cases hr : raisedBy i s with
  | some f =>
    cases (exec_of_raisedBy hr).symm.trans h
    exact hs
  | none =>
    cases i with
    | call nnn =>
      have hsp : s.sp.val ≠ 16 := by simpa [raisedBy] using hr
      cases (execCall_of_not_full hsp nnn).symm.trans h
      exact State.pcBounded_push (State.pcBounded_advance hs hfetch) (toNat_add_two_le hfetch) (by bv_omega)
    | ret =>
      have hsp : s.sp.val ≠ 0 := by simpa [raisedBy] using hr
      cases (execRet_of_not_empty hsp).symm.trans h
      exact State.pcBounded_popPc (State.pcBounded_advance hs hfetch) hsp
    | jp nnn => cases h; exact State.pcBounded_of_stack_eq hs rfl rfl (by simp; omega)
    | jpV0 nnn => cases h; exact State.pcBounded_of_stack_eq hs rfl rfl (toNat_jumpTarget_le nnn _)
    | seImm _ _ | sneImm _ _ | seReg _ _ | sneReg _ _ | skp _ | sknp _ =>
      refine State.pcBounded_of_stack_eq hs (w.sp nofun nofun) (w.stk nofun) ?_
      cases h
      exact State.toNat_pc_skipIf_le hfetch _
    | ldVxK x =>
      refine State.pcBounded_of_stack_eq hs (w.sp nofun nofun) (w.stk nofun) ?_
      cases hk : s.lowestKey with
      | none => cases (execLdVxK_of_no_key hk x).symm.trans h; exact hs.1
      | some k =>
        cases (execLdVxK_of_key hk x).symm.trans h
        exact (State.pcBounded_advance hs hfetch).1
    | _ =>
      refine State.pcBounded_of_stack_eq hs (w.sp nofun nofun) (w.stk nofun) ?_
      rw [w.pc rfl hr]
      exact (toNat_add_two_le hfetch).trans (by decide)

theorem State.stepTick_keeps_pcBounded {s t : State} (hs : s.pcBounded) (h : s.stepTick = .next t) : t.pcBounded := by
  obtain ⟨-, rfl⟩ | ⟨-, -, rfl⟩ | ⟨-, hfetch, hexec⟩ := State.stepTick_cases h
  · exact hs
  · exact hs
  · exact exec_keeps_pcBounded hs hfetch hexec

theorem applyEvent_keeps_pcBounded {e : Event} {s t : State} (hs : s.pcBounded) (h : applyEvent e s = .next t) :
    t.pcBounded := by
  obtain ⟨-, rfl⟩ | ⟨rom, -, -, rfl⟩ | ⟨r, u, -, hu, rfl⟩ | ⟨-, rfl⟩ | ⟨k, down, rfl, -⟩ := applyEvent_cases h
  · exact State.pcBounded_resetWith s.cfg
  · exact State.pcBounded_of_stack_eq (State.pcBounded_resetWith s.cfg) (by simp; rfl) (by simp; rfl) (by simp)
  · exact State.stepTick_keeps_pcBounded (s := { s with rnd := r }) (t := u) hs hu
  · exact hs
  · exact hs

/-- Settles O58: each of the two forms of a step keeps the bound. -/
theorem programCounterNeverWraps : Obligations.ProgramCounterNeverWraps := by
  intro s t hs h
  obtain ⟨-, -, htick⟩ | ⟨e, u, -, hu, happly⟩ := step_cases h
  · exact State.stepTick_keeps_pcBounded hs htick
  · have hpc : u.pcBounded := by rw [hu]; exact hs
    exact applyEvent_keeps_pcBounded hpc happly

/-! ### The fault latch (10_state.md R29) -/

/-- Settles O53: a halted core ignores step ticks, and no other event but `Reset` and `Load` writes the latch. -/
theorem faultLatchIsSticky : Obligations.FaultLatchIsSticky := by
  intro e s t hs h
  obtain ⟨rfl, rfl⟩ | ⟨rom, rfl, -, rfl⟩ | ⟨r, u, rfl, hu, rfl⟩ | ⟨rfl, rfl⟩ | ⟨k, down, rfl, he⟩ := applyEvent_cases h
  · simp
  · simp
  · obtain rfl : { s with rnd := r } = u := by
      simpa using (State.stepTick_halted (s := { s with rnd := r }) hs).symm.trans hu
    simp
  · simp
  · obtain ⟨rfl, -⟩ | ⟨rfl, -⟩ := he <;> simp

/-! ### Reset (10_state.md R33) -/

/-- In a memory that lists nothing the font region reads as `FONT` (20_memory.md R51). -/
theorem State.readByte_font_of_mem_nil {s : State} (h : s.mem = []) (k : Nat) (hk : k < 80) :
    s.readByte (0x050 + k) = s.cfg.font[k] := by
  rw [State.readByte, h]
  exact Memory.initial_font k hk

theorem State.readByte_zero_of_mem_nil {s : State} (h : s.mem = []) (a : Nat) (ha : a < 0x050 ∨ 0x09F < a) :
    s.readByte a = 0 := by
  rw [State.readByte, h]
  exact Memory.initial_zero a (by simp only [fontBase, fontSize]; omega)

theorem State.displayOut_of_disp_zero {s : State} (h : s.disp = 0) (col : Fin 64) (row : Fin 32) :
    s.displayOut col row = false := by
  simp [State.displayOut, Display.cell, h]

/-- Settles O48: the elements one by one. -/
theorem resetGivesResetValues : Obligations.ResetGivesResetValues := fun s =>
  ⟨s.resetEvent, rfl, fun _ => Vector.getElem_replicate _, rfl, rfl, rfl, fun _ => Vector.getElem_replicate _,
    State.readByte_font_of_mem_nil rfl, State.readByte_zero_of_mem_nil rfl, State.displayOut_of_disp_zero rfl, rfl, rfl,
    fun _ => Vector.getElem_replicate _, rfl, rfl⟩

/-- Settles O49: the state the model starts from is the same, under the default configuration. -/
theorem resetStateHasResetValues : Obligations.ResetStateHasResetValues :=
  ⟨fun _ => Vector.getElem_replicate _, rfl, rfl, rfl, fun _ => Vector.getElem_replicate _,
    State.readByte_font_of_mem_nil rfl, State.readByte_zero_of_mem_nil rfl, State.displayOut_of_disp_zero rfl, rfl, rfl,
    fun _ => Vector.getElem_replicate _, rfl, rfl, rfl, rfl⟩

/-- Settles O59: memory lists nothing, `PC` is 0x0200 and no stack entry is live. -/
theorem resetMeetsInvariant : Obligations.ResetMeetsInvariant := fun cfg =>
  ⟨Memory.wf_nil, State.pcBounded_resetWith cfg⟩

/-! ### Dead stack slots (10_state.md R24)

An instruction commutes with a change of the stack slots, unless it is the call or the return, and with a change of the
random byte, unless it is Cxkk: no other reads or writes them. -/

/-- The stack slots and the random byte changed by functions of their own, everything else as it was. -/
def State.mapHidden (slots : Vector Word 16 → Vector Word 16) (byte : Byte → Byte) (s : State) : State :=
  { s with stk := slots s.stk, rnd := byte s.rnd }

section
variable (slots : Vector Word 16 → Vector Word 16) (byte : Byte → Byte) (s : State)

theorem State.readBytes_mapHidden (a n : Nat) : (s.mapHidden slots byte).readBytes a n = s.readBytes a n := by
  induction n generalizing a with
  | zero => rfl
  | succ n ih => exact congrArg (s.readByte a :: ·) (ih (a + 1))

theorem State.writeBytes_mapHidden (a : Nat) (ws : List Byte) :
    (s.mapHidden slots byte).writeBytes a ws = (s.writeBytes a ws).mapHidden slots byte := by
  induction ws generalizing s a with
  | nil => rfl
  | cons w ws ih => exact ih (s.writeByte a w) (a + 1)

theorem State.loadRegs_mapHidden (a n : Nat) : (s.mapHidden slots byte).loadRegs a n = s.loadRegs a n := by
  induction n with
  | zero => rfl
  | succ n ih => exact congrArg (fun v => v.setIfInBounds n (s.readByte (a + n))) ih

theorem State.skipIf_mapHidden (c : Bool) :
    (s.mapHidden slots byte).skipIf c = (s.skipIf c).mapHidden slots byte := by
  cases c <;> rfl

theorem raisedBy_mapHidden (i : Instr) : raisedBy i (s.mapHidden slots byte) = raisedBy i s := by
  cases i <;> rfl

end

theorem exec_mapHidden {slots : Vector Word 16 → Vector Word 16} {byte : Byte → Byte} {i : Instr} {s t : State}
    (hstk : slots = id ∨ (∀ nnn, i ≠ .call nnn) ∧ i ≠ .ret) (hrnd : byte = id ∨ ∀ x kk, i ≠ .rnd x kk)
    (h : exec i s = .next t) : exec i (s.mapHidden slots byte) = .next (t.mapHidden slots byte) := by
  have hraise := raisedBy_mapHidden slots byte s i
  cases hr : raisedBy i s with
  | some f =>
    cases (exec_of_raisedBy hr).symm.trans h
    exact exec_of_raisedBy (hraise.trans hr)
  | none =>
    rw [hr] at hraise
    cases i with
    | call nnn =>
      obtain rfl : slots = id := hstk.resolve_right fun hne => hne.1 nnn rfl
      have hsp : s.sp.val ≠ 16 := by simpa [raisedBy] using hr
      cases (execCall_of_not_full hsp nnn).symm.trans h
      exact execCall_of_not_full (s := s.mapHidden id byte) hsp nnn
    | ret =>
      obtain rfl : slots = id := hstk.resolve_right fun hne => hne.2 rfl
      have hsp : s.sp.val ≠ 0 := by simpa [raisedBy] using hr
      cases (execRet_of_not_empty hsp).symm.trans h
      exact execRet_of_not_empty (s := s.mapHidden id byte) hsp
    | rnd x kk =>
      obtain rfl : byte = id := hrnd.resolve_right fun hne => hne x kk rfl
      cases h
      rfl
    | seImm _ _ | sneImm _ _ | seReg _ _ | sneReg _ _ | skp _ | sknp _ =>
      cases h
      exact congrArg Host.Outcome.next (State.skipIf_mapHidden slots byte s.advance _)
    | drw x y n =>
      cases (accessOrRaise_of_no_fault (raisedBy_drw x y n s ▸ hr) _).symm.trans h
      refine (accessOrRaise_of_no_fault (raisedBy_drw x y n _ ▸ hraise) _).trans ?_
      rw [State.readBytes_mapHidden]
      rfl
    | ldB x =>
      cases (accessOrRaise_of_no_fault (raisedBy_ldB x s ▸ hr) _).symm.trans h
      refine (accessOrRaise_of_no_fault (raisedBy_ldB x _ ▸ hraise) _).trans ?_
      exact congrArg Host.Outcome.next (State.writeBytes_mapHidden slots byte s.advance _ _)
    | stRegs x =>
      cases (accessOrRaise_of_no_fault (raisedBy_stRegs x s ▸ hr) _).symm.trans h
      refine (accessOrRaise_of_no_fault (raisedBy_stRegs x _ ▸ hraise) _).trans ?_
      exact congrArg (fun u => Host.Outcome.next (u.setI (s.indexAfter (x.val + 1))))
        (State.writeBytes_mapHidden slots byte s.advance _ _)
    | ldRegs x =>
      cases (accessOrRaise_of_no_fault (raisedBy_ldRegs x s ▸ hr) _).symm.trans h
      refine (accessOrRaise_of_no_fault (raisedBy_ldRegs x _ ▸ hraise) _).trans ?_
      rw [State.loadRegs_mapHidden]
      rfl
    | addI x =>
      cases hq : s.cfg.qAddiVf with
      | off =>
        cases (execAddI_off hq x).symm.trans h
        exact execAddI_off (s := s.mapHidden slots byte) hq x
      | on =>
        cases (execAddI_on hq x).symm.trans h
        exact execAddI_on (s := s.mapHidden slots byte) hq x
    | ldVxK x =>
      cases hk : s.lowestKey with
      | none =>
        cases (execLdVxK_of_no_key hk x).symm.trans h
        exact execLdVxK_of_no_key (s := s.mapHidden slots byte) hk x
      | some k =>
        cases (execLdVxK_of_key hk x).symm.trans h
        exact execLdVxK_of_key (s := s.mapHidden slots byte) hk x
    | _ => cases h; rfl

theorem State.sameButDeadSlots.exists_stk {s u : State} (h : s.sameButDeadSlots u) :
    ∃ stk, u = { s with stk := stk } ∧ ∀ (j : Nat) (h : j < 16), j < s.sp.val → stk[j] = s.stk[j] :=
  ⟨u.stk, h⟩

theorem State.sameButDeadSlots.refl (s : State) : s.sameButDeadSlots s := ⟨rfl, fun _ _ _ => rfl⟩

/-- Every output is one of other elements than the stack (10_state.md R35). -/
theorem State.sameButDeadSlots.outputs {s u : State} (h : s.sameButDeadSlots u) :
    u.faultOut = s.faultOut ∧ u.soundOut = s.soundOut ∧ u.displayOut = s.displayOut := by
  obtain ⟨stk, rfl, -⟩ := h.exists_stk
  exact ⟨rfl, rfl, rfl⟩

/-- The same answer but for dead stack slots. -/
inductive SameAnswer : Result → Result → Prop where
  | next {t w : State} (h : t.sameButDeadSlots w) : SameAnswer (.next t) (.next w)
  | refused (r : Refusal) : SameAnswer (.refused r) (.refused r)

theorem SameAnswer.refl : ∀ r : Result, SameAnswer r r
  | .next t => .next (.refl t)
  | .refused r => .refused r

theorem SameAnswer.of_refused {r : Refusal} {y : Result} (h : SameAnswer (.refused r) y) : y = .refused r := by
  cases h
  rfl

theorem SameAnswer.of_next {t : State} {y : Result} (h : SameAnswer (.next t) y) :
    ∃ w, y = .next w ∧ t.sameButDeadSlots w := by
  cases h with
  | next h => exact ⟨_, rfl, h⟩

theorem SameAnswer.onNext {f : State → State}
    (hf : ∀ {t w : State}, t.sameButDeadSlots w → (f t).sameButDeadSlots (f w)) {x y : Result} (h : SameAnswer x y) :
    SameAnswer (onNext f x) (onNext f y) := by
  cases h with
  | next h => exact .next (hf h)
  | refused r => exact .refused r

theorem State.sameButDeadSlots_push {s : State} {stk : Vector Word 16}
    (hlive : ∀ (j : Nat) (h : j < 16), j < s.sp.val → stk[j] = s.stk[j]) (w p : Word) :
    ((s.push w).setPc p).sameButDeadSlots ((State.push { s with stk := stk } w).setPc p) := by
  refine ⟨rfl, fun j hj hpushed => ?_⟩
  simp only [State.setPc_sp, State.push_sp] at hpushed
  simp only [State.setPc_stk, State.push_stk, Vector.getElem_setIfInBounds]
  split
  · rfl
  · exact hlive j hj (by omega)

theorem State.sameButDeadSlots_popPc {s : State} {stk : Vector Word 16}
    (hlive : ∀ (j : Nat) (h : j < 16), j < s.sp.val → stk[j] = s.stk[j]) (h : s.sp.val ≠ 0) :
    s.popPc.sameButDeadSlots (State.popPc { s with stk := stk }) := by
  refine ⟨?_, fun j hj hpopped => hlive j hj (by simp only [State.popPc_sp] at hpopped; omega)⟩
  simp [State.popPc, hlive _ _ (Nat.sub_one_lt h)]

/-- The call overwrites the first dead slot, the return reads the last live one, and no other instruction reads or
writes a slot. -/
theorem exec_sameAnswer {s u : State} (hsu : s.sameButDeadSlots u) (i : Instr) : SameAnswer (exec i s) (exec i u) := by
  obtain ⟨stk, rfl, hlive⟩ := hsu.exists_stk
  cases hr : raisedBy i s with
  | some f =>
    have hru : raisedBy i { s with stk := stk } = some f := (raisedBy_mapHidden (fun _ => stk) id s i).trans hr
    rw [exec_of_raisedBy hr, exec_of_raisedBy hru]
    exact .next ⟨rfl, hlive⟩
  | none =>
    by_cases hstk : (∀ nnn, i ≠ .call nnn) ∧ i ≠ .ret
    · obtain ⟨t, ht⟩ := exec_next i s
      have hw := exec_writesOnlyNamed ht
      have hu : exec i { s with stk := stk } = _ := exec_mapHidden (slots := fun _ => stk) (.inr hstk) (.inl rfl) ht
      rw [ht, hu]
      refine .next ⟨rfl, ?_⟩
      rw [hw.sp hstk.1 hstk.2, hw.stk hstk.1]
      exact hlive
    · cases i with
      | call nnn =>
        have hsp : s.sp.val ≠ 16 := by simpa [raisedBy] using hr
        have hs : exec (.call nnn) s = _ := execCall_of_not_full hsp nnn
        have hu : exec (.call nnn) { s with stk := stk } = _ :=
          execCall_of_not_full (s := { s with stk := stk }) hsp nnn
        rw [hs, hu]
        exact .next (State.sameButDeadSlots_push (s := s.advance) hlive _ _)
      | ret =>
        have hsp : s.sp.val ≠ 0 := by simpa [raisedBy] using hr
        have hs : exec .ret s = _ := execRet_of_not_empty hsp
        have hu : exec .ret { s with stk := stk } = _ :=
          execRet_of_not_empty (s := { s with stk := stk }) hsp
        rw [hs, hu]
        exact .next (State.sameButDeadSlots_popPc (s := s.advance) hlive hsp)
      | _ => exact absurd ⟨nofun, nofun⟩ hstk

theorem State.stepTick_sameAnswer {s u : State} (hsu : s.sameButDeadSlots u) : SameAnswer s.stepTick u.stepTick := by
  obtain ⟨stk, rfl, hlive⟩ := hsu.exists_stk
  by_cases hf : s.fault = .none
  · by_cases hp : s.pc.toNat ≤ 4094
    · rw [State.stepTick_exec hf hp, State.stepTick_exec (s := { s with stk := stk }) hf hp]
      exact exec_sameAnswer hsu _
    · rw [State.stepTick_fetchOob hf (not_le.mp hp),
        State.stepTick_fetchOob (s := { s with stk := stk }) hf (not_le.mp hp)]
      exact .next ⟨rfl, hlive⟩
  · rw [State.stepTick_halted hf, State.stepTick_halted (s := { s with stk := stk }) hf]
    exact .next hsu

/-- `StepTick(r)` is a step tick with `r` in `rnd`, and then the byte still to come is put back. -/
theorem State.stepTickWith_eq_onNext (s : State) (r : Byte) :
    s.stepTickWith r =
      onNext (fun t => { t with rnd := s.rnd, draws := s.draws }) (State.stepTick { s with rnd := r }) := by
  unfold State.stepTickWith
  cases State.stepTick { s with rnd := r } <;> rfl

theorem State.stepTickWith_sameAnswer {s u : State} (hsu : s.sameButDeadSlots u) (r : Byte) :
    SameAnswer (s.stepTickWith r) (u.stepTickWith r) := by
  obtain ⟨stk, rfl, hlive⟩ := hsu.exists_stk
  rw [State.stepTickWith_eq_onNext, State.stepTickWith_eq_onNext]
  refine SameAnswer.onNext (fun h => ?_) (State.stepTick_sameAnswer ⟨rfl, hlive⟩)
  obtain ⟨_, rfl, hlive'⟩ := h.exists_stk
  exact ⟨rfl, hlive'⟩

theorem applyEvent_sameAnswer {s u : State} (hsu : s.sameButDeadSlots u) (e : Event) :
    SameAnswer (applyEvent e s) (applyEvent e u) := by
  obtain ⟨stk, rfl, hlive⟩ := hsu.exists_stk
  cases e with
  | reset | load _ => exact SameAnswer.refl _
  | stepTick r => exact State.stepTickWith_sameAnswer hsu r
  | timerTick | keyPress _ | keyRelease _ => exact .next ⟨rfl, hlive⟩

/-- The schedule does not depend on the stack. -/
theorem State.nextScheduled_withStk (s : State) (stk : Vector Word 16) :
    State.nextScheduled { s with stk := stk } = s.nextScheduled.map fun p => (p.1, { p.2 with stk := stk }) := by
  unfold State.nextScheduled
  cases s.pending <;> cases s.later <;> rfl

theorem step_sameAnswer {s u : State} (hsu : s.sameButDeadSlots u) : SameAnswer (step s) (step u) := by
  obtain ⟨stk, rfl, hlive⟩ := hsu.exists_stk
  have hnext := State.nextScheduled_withStk s stk
  cases hs : s.nextScheduled with
  | none =>
    obtain ⟨hp, hl⟩ := State.nextScheduled_none hs
    rw [step_idle hp hl, step_idle (s := { s with stk := stk }) hp hl]
    exact State.stepTick_sameAnswer hsu
  | some p =>
    rw [hs] at hnext
    rw [step_scheduled hs, step_scheduled hnext]
    have hframe := State.nextScheduled_frame hs
    refine applyEvent_sameAnswer ⟨rfl, ?_⟩ p.1
    rw [hframe]
    exact hlive

/-- Settles O60: the answers of a step, then the outputs. -/
theorem deadStackSlotsAreUnobservable : Obligations.DeadStackSlotsAreUnobservable := by
  intro s u hsu
  have hstep := step_sameAnswer hsu
  refine ⟨fun r hr => (hr ▸ hstep).of_refused, fun t ht => ?_⟩
  obtain ⟨w, hw, htw⟩ := (ht ▸ hstep).of_next
  obtain ⟨hfault, hsound, hdisplay⟩ := htw.outputs
  exact ⟨w, hw, htw, hfault, hsound, fun col row => by rw [hdisplay]⟩

end Sys2Proof.Machine

/-! Proofs of the memory family (20_memory.md): every step keeps memory canonical, a canonical memory is fixed by what
it reads as, and the fetch sees the stores made before it. -/

namespace Sys2Proof.Machine

/-! ### The canonical form along a step (R50, R53) -/

theorem State.memCanonical_of_mem_eq {s t : State} (hs : s.memCanonical) (hmem : t.mem = s.mem)
    (hcfg : t.cfg = s.cfg) : t.memCanonical := by
  rw [State.memCanonical, hmem, hcfg]
  exact hs

/-- Only Fx33 and Fx55 write memory, and only when the whole block they write exists. -/
theorem exec_keeps_memCanonical {i : Instr} {s t : State} (hs : s.memCanonical) (h : exec i s = .next t) :
    t.memCanonical := by
  cases i with
  | ldB x =>
    obtain ⟨-, rfl⟩ | ⟨hin, rfl⟩ := accessOrRaise_cases _ _ _ _ h
    · exact hs
    · exact State.memCanonical_writeBytes s.advance _ _ hs (hin.resolve_left (by decide))
  | stRegs x =>
    obtain ⟨-, rfl⟩ | ⟨hin, rfl⟩ := accessOrRaise_cases _ _ _ _ h
    · exact hs
    · refine State.memCanonical_writeBytes s.advance _ _ hs ?_
      rw [State.length_firstRegs s _ x.isLt]
      exact hin.resolve_left x.val.succ_ne_zero
  | _ =>
    have w := exec_writesOnlyNamed h
    exact State.memCanonical_of_mem_eq hs (w.mem nofun nofun) w.cfg

theorem State.stepTick_keeps_memCanonical {s t : State} (hs : s.memCanonical) (h : s.stepTick = .next t) :
    t.memCanonical := by
  obtain ⟨-, rfl⟩ | ⟨-, -, rfl⟩ | ⟨-, -, hexec⟩ := State.stepTick_cases h
  · exact hs
  · exact hs
  · exact exec_keeps_memCanonical hs hexec

/-- `Reset` empties the list, and a ROM that is not refused fits between 0x200 and the end of memory. -/
theorem applyEvent_keeps_memCanonical {e : Event} {s t : State} (hs : s.memCanonical)
    (h : applyEvent e s = .next t) : t.memCanonical := by
  obtain ⟨-, rfl⟩ | ⟨rom, -, hlen, rfl⟩ | ⟨r, u, -, hu, rfl⟩ | ⟨-, rfl⟩ | ⟨k, down, rfl, -⟩ := applyEvent_cases h
  · exact Memory.wf_nil
  · exact State.memCanonical_writeBytes s.resetEvent progBase rom Memory.wf_nil (Nat.add_le_add_left hlen progBase)
  · exact State.stepTick_keeps_memCanonical (s := { s with rnd := r }) (t := u) hs hu
  · exact hs
  · exact hs

/-- Settles O57: each of the two forms of a step keeps the canonical form. -/
theorem stepKeepsMemoryCanonical : Obligations.StepKeepsMemoryCanonical := by
  intro s t hs h
  obtain ⟨-, -, htick⟩ | ⟨e, u, -, hu, happly⟩ := step_cases h
  · exact State.stepTick_keeps_memCanonical hs htick
  · have hmem : u.memCanonical := by rw [hu]; exact hs
    exact applyEvent_keeps_memCanonical hmem happly

/-! ### A canonical memory lists exactly the addresses that do not read as at reset (R51) -/

section
variable {font : Vector Byte fontSize} {m : Memory}

theorem Memory.read_of_mem (hm : m.Pairwise (fun c d => c.1 < d.1)) {c : Host.Cell} (hc : c ∈ m) :
    m.read font c.1 = c.2 := by
  induction m with
  | nil => simp at hc
  | cons d rest ih =>
    obtain ⟨hd, hrest⟩ := List.pairwise_cons.mp hm
    rcases List.mem_cons.mp hc with rfl | hc
    · simp [Memory.read]
    · rw [Memory.read, if_neg (hd c hc).ne']
      exact ih hrest hc

theorem Memory.mem_of_read_ne_initial {a : Nat} (h : m.read font a ≠ Memory.initial font a) :
    (a, m.read font a) ∈ m := by
  induction m with
  | nil => exact absurd rfl h
  | cons d rest ih =>
    obtain ⟨b, w⟩ := d
    by_cases hab : a = b
    · simp [Memory.read, hab]
    · rw [Memory.read, if_neg hab] at h ⊢
      exact List.mem_cons_of_mem _ (ih h)

theorem Memory.mem_iff_read (hm : m.wf font) (c : Host.Cell) :
    c ∈ m ↔ m.read font c.1 = c.2 ∧ c.2 ≠ Memory.initial font c.1 := by
  obtain ⟨hsorted, hcells⟩ := hm
  constructor
  · exact fun hc => ⟨Memory.read_of_mem hsorted hc, (hcells c hc).2⟩
  · rintro ⟨hread, hne⟩
    have hmem : (c.1, m.read font c.1) ∈ m := Memory.mem_of_read_ne_initial (hread.trans_ne hne)
    rwa [hread] at hmem

end

/-- Settles O36: the two memories list the same cells, each in rising order. -/
theorem canonicalMemoriesAreEqual : Obligations.CanonicalMemoriesAreEqual := by
  intro font m m' hm hm' hread
  have hcells : ∀ c, c ∈ m ↔ c ∈ m' := fun c => by
    rw [Memory.mem_iff_read hm, Memory.mem_iff_read hm', hread]
  have : Std.Asymm (fun c d : Host.Cell => c.1 < d.1) := ⟨fun _ _ => Nat.lt_asymm⟩
  exact hm.1.eq_of_mem_iff hm'.1 hcells

/-! ### What Fx55 stores, and the fetch after it (R59, R144) -/

theorem exec_stRegs_of_in_bounds {x : Reg} {s : State} (h : s.i.toNat + x.val ≤ 4095) :
    exec (.stRegs x) s =
      .next ((s.advance.writeBytes s.i.toNat (s.firstRegs (x.val + 1))).setI (s.indexAfter (x.val + 1))) :=
  accessOrRaise_next s _ _ (.inr (Nat.succ_le_succ h))

/-- The block that Fx55 stores, byte by byte. -/
theorem State.readByte_writeBytes_firstRegs (s : State) {x j : Reg} (a : Nat) (h : j ≤ x) :
    (s.writeBytes a (s.firstRegs (x.val + 1))).readByte (a + j.val) = s.v[j] := by
  have hlen : (s.firstRegs (x.val + 1)).length = x.val + 1 := State.length_firstRegs s _ x.isLt
  have hj : j.val < x.val + 1 := Nat.lt_succ_of_le h
  simp [State.readByte_writeBytes, hlen, hj, State.getElem_firstRegs]

/-- Settles O35: the two bytes that the fetch reads are those of V0 and V1. -/
theorem storedWordIsFetchedNext : Obligations.StoredWordIsFetchedNext := by
  intro x s t hx _ hi hin h
  obtain rfl := Host.Outcome.next.inj ((exec_stRegs_of_in_bounds hin).symm.trans h)
  have hstored (j : Reg) (hj : j ≤ x) := State.readByte_writeBytes_firstRegs s.advance s.i.toNat hj
  rw [State.fetchOp, State.setI_pc, State.writeBytes_pc, State.advance_pc, ← hi]
  exact congrArg₂ combine (hstored 0 x.zero_le) (hstored 1 hx)

end Sys2Proof.Machine

/-! Proofs of the encoding family (30_encoding.md): the fields of an opcode, decoding and encoding as each other's
inverse, and the opcode map as what the decoder dispatches on. -/

namespace Sys2Proof

/-! ### Decoding after encoding (R70 to R76) -/

/-- The per-instruction round trips, put together. -/
theorem decodeWord_encode : ∀ i : Instr, i.wf = true → decodeWord (encode i) = i
  | .cls         => Laws.RoundTrip.cls
  | .ret         => Laws.RoundTrip.ret
  | .jp nnn      => Laws.RoundTrip.jp nnn
  | .call nnn    => Laws.RoundTrip.call nnn
  | .seImm x kk  => Laws.RoundTrip.seImm x kk
  | .sneImm x kk => Laws.RoundTrip.sneImm x kk
  | .seReg x y   => Laws.RoundTrip.seReg x y
  | .sneReg x y  => Laws.RoundTrip.sneReg x y
  | .ldImm x kk  => Laws.RoundTrip.ldImm x kk
  | .addImm x kk => Laws.RoundTrip.addImm x kk
  | .ldReg x y   => Laws.RoundTrip.ldReg x y
  | .orReg x y   => Laws.RoundTrip.orReg x y
  | .andReg x y  => Laws.RoundTrip.andReg x y
  | .xorReg x y  => Laws.RoundTrip.xorReg x y
  | .addReg x y  => Laws.RoundTrip.addReg x y
  | .subReg x y  => Laws.RoundTrip.subReg x y
  | .shrReg x y  => Laws.RoundTrip.shrReg x y
  | .subnReg x y => Laws.RoundTrip.subnReg x y
  | .shlReg x y  => Laws.RoundTrip.shlReg x y
  | .ldI nnn     => Laws.RoundTrip.ldI nnn
  | .jpV0 nnn    => Laws.RoundTrip.jpV0 nnn
  | .rnd x kk    => Laws.RoundTrip.rnd x kk
  | .drw x y n   => Laws.RoundTrip.drw x y n
  | .skp x       => Laws.RoundTrip.skp x
  | .sknp x      => Laws.RoundTrip.sknp x
  | .ldVxDt x    => Laws.RoundTrip.ldVxDt x
  | .ldDtVx x    => Laws.RoundTrip.ldDtVx x
  | .ldStVx x    => Laws.RoundTrip.ldStVx x
  | .ldVxK x     => Laws.RoundTrip.ldVxK x
  | .addI x      => Laws.RoundTrip.addI x
  | .ldF x       => Laws.RoundTrip.ldF x
  | .ldB x       => Laws.RoundTrip.ldB x
  | .stRegs x    => Laws.RoundTrip.stRegs x
  | .ldRegs x    => Laws.RoundTrip.ldRegs x
  | .nop0 low    => Laws.RoundTrip.nop0 low
  | .nop5 low    => Laws.RoundTrip.nop5 low
  | .nop8 low    => Laws.RoundTrip.nop8 low
  | .nop9 low    => Laws.RoundTrip.nop9 low
  | .nopE low    => Laws.RoundTrip.nopE low
  | .nopF low    => Laws.RoundTrip.nopF low

/-- Settles O1: the stored bytes combine to the encoded word, whose decoding is the instruction. -/
theorem decodeEncodeRoundTrip : Obligations.DecodeEncodeRoundTrip := fun i rest hwf => by
  rw [decode_opcodeBytes, decodeWord_encode i hwf]

/-! ### The fields in arithmetic (R71) -/

section
variable (op : Word)

theorem fields_cls_toNat : (fields op).cls.toNat = op.toNat / 4096 := by
  simp only [fields, BitVec.extractLsb'_toNat, Nat.shiftRight_eq_div_pow]
  omega

theorem fields_x_toNat : (fields op).x.toNat = op.toNat / 256 % 16 := by
  simp only [fields, BitVec.extractLsb'_toNat, Nat.shiftRight_eq_div_pow]

theorem fields_y_toNat : (fields op).y.toNat = op.toNat / 16 % 16 := by
  simp only [fields, BitVec.extractLsb'_toNat, Nat.shiftRight_eq_div_pow]

theorem fields_n_toNat : (fields op).n.toNat = op.toNat % 16 := by
  simp only [fields, BitVec.extractLsb'_toNat, Nat.shiftRight_eq_div_pow]
  omega

theorem fields_kk_toNat : (fields op).kk.toNat = op.toNat % 256 := by
  simp only [fields, BitVec.extractLsb'_toNat, Nat.shiftRight_eq_div_pow]
  omega

theorem fields_nnn_toNat : (fields op).nnn.toNat = op.toNat % 4096 := by
  simp only [fields, BitVec.extractLsb'_toNat, Nat.shiftRight_eq_div_pow]
  omega

end

theorem combine_toNat (hi lo : Byte) : (combine hi lo).toNat = 256 * hi.toNat + lo.toNat := by
  rw [combine, BitVec.toNat_append, ← Nat.shiftLeft_add_eq_or_of_lt lo.isLt, Nat.shiftLeft_eq]
  omega

/-- Settles O4: the overlaps and the two-byte reading follow from the six fields as numbers. -/
theorem opcodeFieldsAreTheBits : Obligations.OpcodeFieldsAreTheBits := by
  constructor
  · intro op
    rw [fields_cls_toNat, fields_x_toNat, fields_y_toNat, fields_n_toNat, fields_kk_toNat, fields_nnn_toNat]
    omega
  · intro hi lo rest
    rw [fields_cls_toNat, fields_x_toNat, ← BitVec.toNat_inj, fields_kk_toNat, combine_toNat]
    exact ⟨by omega, by omega, by omega, _, rfl⟩

/-- Settles O5: the decoder is run on each of the nine words. -/
theorem writtenOutWordsDecode : Obligations.WrittenOutWordsDecode := by
  unfold Obligations.WrittenOutWordsDecode
  decide

/-! ### Encoding after decoding (R71, R76) -/

section
variable {op : Word} {c : BitVec 4}

theorem encNNN_of_fields {nnn : BitVec 12} (hcls : (fields op).cls = c) (hnnn : (fields op).nnn = nnn) :
    encNNN c nnn = op :=
  hcls ▸ hnnn ▸ encNNN_fields op

theorem encXKK_of_fields {kk : Byte} (hcls : (fields op).cls = c) (hkk : (fields op).kk = kk) :
    encXKK c (nibbleVal (fields op).x) kk = op :=
  hcls ▸ hkk ▸ encXKK_fields op

theorem encXYN_of_fields {n : BitVec 4} (hcls : (fields op).cls = c) (hn : (fields op).n = n) :
    encXYN c (nibbleVal (fields op).x) (nibbleVal (fields op).y) n = op :=
  hcls ▸ hn ▸ encXYN_fields op

end

/-- The low nibble that a no-op of class 5, 8 or 9 keeps is the field `n`. -/
theorem extractLsb'_nnn_nibble (op : Word) : (fields op).nnn.extractLsb' 0 4 = (fields op).n := by
  ext i hi
  simp [fields]

/-- The low byte that a no-op of class E or F keeps is the field `kk`. -/
theorem extractLsb'_nnn_byte (op : Word) : (fields op).nnn.extractLsb' 0 8 = (fields op).kk := by
  simp [fields]

/-- A well-formed instruction whose encoding is the opcode: what decoding has to answer. -/
def Instr.EncodesAs (i : Instr) (op : Word) : Prop := i.wf = true ∧ encode i = op

section
variable {op : Word}

theorem decodeClass0_encodesAs (hcls : (fields op).cls = 0x0) : (decodeClass0 (fields op)).EncodesAs op := by
  unfold decodeClass0
  split_ifs with hclear hret
  · exact ⟨rfl, encNNN_of_fields hcls hclear⟩
  · exact ⟨rfl, encNNN_of_fields hcls hret⟩
  · exact ⟨by simp [Instr.wf, hclear, hret], encNNN_of_fields hcls rfl⟩

theorem decodeClass5_encodesAs (hcls : (fields op).cls = 0x5) : (decodeClass5 (fields op)).EncodesAs op := by
  unfold decodeClass5
  split_ifs with hn
  · exact ⟨rfl, encXYN_of_fields hcls hn⟩
  · exact ⟨by simp [Instr.wf, extractLsb'_nnn_nibble, hn], encNNN_of_fields hcls rfl⟩

theorem decodeClass8_encodesAs (hcls : (fields op).cls = 0x8) : (decodeClass8 (fields op)).EncodesAs op := by
  unfold decodeClass8
  split
  case h_10 => exact ⟨by simp_all [Instr.wf, aluSubOpcodes, extractLsb'_nnn_nibble], encNNN_of_fields hcls rfl⟩
  all_goals exact ⟨rfl, encXYN_of_fields hcls ‹_›⟩

theorem decodeClass9_encodesAs (hcls : (fields op).cls = 0x9) : (decodeClass9 (fields op)).EncodesAs op := by
  unfold decodeClass9
  split_ifs with hn
  · exact ⟨rfl, encXYN_of_fields hcls hn⟩
  · exact ⟨by simp [Instr.wf, extractLsb'_nnn_nibble, hn], encNNN_of_fields hcls rfl⟩

theorem decodeClassE_encodesAs (hcls : (fields op).cls = 0xE) : (decodeClassE (fields op)).EncodesAs op := by
  unfold decodeClassE
  split_ifs with hskp hsknp
  · exact ⟨rfl, encXKK_of_fields hcls hskp⟩
  · exact ⟨rfl, encXKK_of_fields hcls hsknp⟩
  · exact ⟨by simp [Instr.wf, keySubOpcodes, extractLsb'_nnn_byte, hskp, hsknp], encNNN_of_fields hcls rfl⟩

theorem decodeClassF_encodesAs (hcls : (fields op).cls = 0xF) : (decodeClassF (fields op)).EncodesAs op := by
  unfold decodeClassF
  split
  case h_10 => exact ⟨by simp_all [Instr.wf, miscSubOpcodes, extractLsb'_nnn_byte], encNNN_of_fields hcls rfl⟩
  all_goals exact ⟨rfl, encXKK_of_fields hcls ‹_›⟩

end

/-- The decoder names an arm for every class but F, which is what is left. -/
theorem cls_eq_F {c : BitVec 4} : c ≠ 0x0 → c ≠ 0x1 → c ≠ 0x2 → c ≠ 0x3 → c ≠ 0x4 → c ≠ 0x5 → c ≠ 0x6 → c ≠ 0x7 →
    c ≠ 0x8 → c ≠ 0x9 → c ≠ 0xA → c ≠ 0xB → c ≠ 0xC → c ≠ 0xD → c ≠ 0xE → c = 0xF := by
  bv_omega

theorem decodeWord_encodesAs (op : Word) : (decodeWord op).EncodesAs op := by
  unfold decodeWord decodeFields
  split
  case h_1 hcls => exact decodeClass0_encodesAs hcls
  case h_6 hcls => exact decodeClass5_encodesAs hcls
  case h_9 hcls => exact decodeClass8_encodesAs hcls
  case h_10 hcls => exact decodeClass9_encodesAs hcls
  case h_15 hcls => exact decodeClassE_encodesAs hcls
  case h_16 =>
    have hcls : (fields op).cls = 0xF := by apply cls_eq_F <;> assumption
    exact decodeClassF_encodesAs hcls
  case h_2 hcls | h_3 hcls | h_11 hcls | h_12 hcls => exact ⟨rfl, encNNN_of_fields hcls rfl⟩
  case h_4 hcls | h_5 hcls | h_7 hcls | h_8 hcls | h_13 hcls => exact ⟨rfl, encXKK_of_fields hcls rfl⟩
  case h_14 hcls => exact ⟨rfl, encXYN_of_fields hcls (nibbleBits_nibbleVal _).symm⟩

/-- Settles O2: class by class, every answer of the decoder encodes as the opcode. -/
theorem encodeDecodeRoundTrip : Obligations.EncodeDecodeRoundTrip := decodeWord_encodesAs

/-! ### A row that selects an opcode is the row of its instruction (R74, R75)

The masks of a class keep every digit that the decoder dispatches on in that class, so an opcode goes to the same row as
the pattern of a row that selects it. -/

/-- Only the class, and the digits that the class dispatches on, decide the row. -/
theorem row_decodeFields_congr {f g : Fields} (hcls : g.cls = f.cls) (hnnn : f.cls = 0x0 → g.nnn = f.nnn)
    (hn : f.cls = 0x5 ∨ f.cls = 0x8 ∨ f.cls = 0x9 → g.n = f.n) (hkk : f.cls = 0xE ∨ f.cls = 0xF → g.kk = f.kk) :
    (decodeFields g).row = (decodeFields f).row := by
  unfold decodeFields
  rw [hcls]
  split
  case h_1 h => rw [decodeClass0, decodeClass0, hnnn h]
  case h_6 h =>
    unfold decodeClass5
    rw [hn (.inl h)]
    split_ifs <;> rfl
  case h_9 h =>
    unfold decodeClass8
    rw [hn (.inr (.inl h))]
    split <;> rfl
  case h_10 h =>
    unfold decodeClass9
    rw [hn (.inr (.inr h))]
    split_ifs <;> rfl
  case h_15 h =>
    unfold decodeClassE
    rw [hkk (.inl h)]
    split_ifs <;> rfl
  case h_16 =>
    have h : f.cls = 0xF := by apply cls_eq_F <;> assumption
    unfold decodeClassF
    rw [hkk (.inr h)]
    split <;> rfl
  all_goals rfl

/-- What R75 says of the masks: which digits they compare in which class. -/
theorem opcodeMap_mask : ∀ r ∈ opcodeMap, (fields r.mask).cls = BitVec.allOnes 4 ∧
    ((fields r.pattern).cls = 0x0 → (fields r.mask).nnn = BitVec.allOnes 12) ∧
    ((fields r.pattern).cls = 0x5 ∨ (fields r.pattern).cls = 0x8 ∨ (fields r.pattern).cls = 0x9 →
      (fields r.mask).n = BitVec.allOnes 4) ∧
    ((fields r.pattern).cls = 0xE ∨ (fields r.pattern).cls = 0xF → (fields r.mask).kk = BitVec.allOnes 8) := by
  decide

theorem row_decodeWord_pattern : ∀ r ∈ opcodeMap, (decodeWord r.pattern).row = r.number := by decide

theorem fields_and (op m : Word) :
    fields (op &&& m) = ⟨(fields op).cls &&& (fields m).cls, (fields op).x &&& (fields m).x,
      (fields op).y &&& (fields m).y, (fields op).n &&& (fields m).n, (fields op).kk &&& (fields m).kk,
      (fields op).nnn &&& (fields m).nnn⟩ := by
  simp [fields, BitVec.extractLsb'_and]

theorem row_decodeWord_of_selects {op : Word} {r : Row} (hr : r ∈ opcodeMap) (h : op &&& r.mask = r.pattern) :
    (decodeWord op).row = r.number := by
  obtain ⟨hcls, hnnn, hn, hkk⟩ := opcodeMap_mask r hr
  have hpattern := fields_and op r.mask
  rw [h] at hpattern
  rw [← row_decodeWord_pattern r hr]
  refine row_decodeFields_congr ?_ (fun hc => ?_) (fun hc => ?_) (fun hc => ?_)
  · simp only [hpattern, hcls, BitVec.and_allOnes]
  · simp only [hpattern, hnnn hc, BitVec.and_allOnes]
  · simp only [hpattern, hn hc, BitVec.and_allOnes]
  · simp only [hpattern, hkk hc, BitVec.and_allOnes]

/-! ### Every instruction but the no-ops has a row that selects its encoding (R74, R75)

A mask leaves the literal digits of an encoding and clears its operands, one lemma per format and mask. -/

/-- `BitVec.and_allOnes`, with the digit as `simp` writes it. -/
@[simp] theorem nibble_and_mask (b : BitVec 4) : b &&& 0xF#4 = b := BitVec.and_allOnes

@[simp] theorem byte_and_mask (b : Byte) : b &&& 0xFF#8 = b := BitVec.and_allOnes

@[simp] theorem nibbleVal_zero : nibbleVal 0#4 = 0 := rfl

section
variable (c : BitVec 4) (x y : Reg)

theorem encNNN_and_mask (nnn : BitVec 12) : encNNN c nnn &&& 0xF000 = encNNN c 0 := by
  rw [← encNNN_fields (_ &&& _), fields_and, fields_encNNN]
  simp [fields]

theorem encXKK_and_mask (kk : Byte) : encXKK c x kk &&& 0xF000 = encXKK c 0 0 := by
  rw [← encXKK_fields (_ &&& _), fields_and, fields_encXKK]
  simp [fields]

theorem encXKK_and_mask_kk (kk : Byte) : encXKK c x kk &&& 0xF0FF = encXKK c 0 kk := by
  rw [← encXKK_fields (_ &&& _), fields_and, fields_encXKK]
  simp [fields]

theorem encXYN_and_mask (n : BitVec 4) : encXYN c x y n &&& 0xF000 = encXYN c 0 0 0 :=
  encXKK_and_mask c x _

theorem encXYN_and_mask_n (n : BitVec 4) : encXYN c x y n &&& 0xF00F = encXYN c 0 0 n := by
  rw [← encXYN_fields (_ &&& _), fields_and, fields_encXYN]
  simp [fields]

end

/-- The row is the one that the table lists under the instruction's own number. -/
theorem opcodeMap_selects_encode (i : Instr) (h : i.row ≠ 35) :
    ∃ r ∈ opcodeMap, r.number = i.row ∧ encode i &&& r.mask = r.pattern := by
  suffices ∃ r, opcodeMap[i.row - 1]? = some r ∧ r.number = i.row ∧ encode i &&& r.mask = r.pattern by
    obtain ⟨r, hr, hrow⟩ := this
    exact ⟨r, List.mem_of_getElem? hr, hrow⟩
  cases i with
  | cls | ret => exact ⟨_, rfl, rfl, rfl⟩
  | jp nnn | call nnn | ldI nnn | jpV0 nnn => exact ⟨_, rfl, rfl, encNNN_and_mask _ nnn⟩
  | seImm x kk | sneImm x kk | ldImm x kk | addImm x kk | rnd x kk => exact ⟨_, rfl, rfl, encXKK_and_mask _ x kk⟩
  | drw x y n => exact ⟨_, rfl, rfl, encXYN_and_mask _ x y (nibbleBits n)⟩
  | seReg x y | sneReg x y | ldReg x y | orReg x y | andReg x y | xorReg x y | addReg x y | subReg x y | shrReg x y
  | subnReg x y | shlReg x y => exact ⟨_, rfl, rfl, encXYN_and_mask_n _ x y _⟩
  | skp x | sknp x | ldVxDt x | ldDtVx x | ldStVx x | ldVxK x | addI x | ldF x | ldB x | stRegs x | ldRegs x =>
    exact ⟨_, rfl, rfl, encXKK_and_mask_kk _ x _⟩
  | nop0 | nop5 | nop8 | nop9 | nopE | nopF => exact absurd rfl h

/-- The row of a decoded opcode, unless it is a no-op, selects the opcode. -/
theorem opcodeMap_selects_of_row {op : Word} (h : (decodeWord op).row ≠ 35) :
    ∃ r ∈ opcodeMap, r.number = (decodeWord op).row ∧ op &&& r.mask = r.pattern := by
  have := opcodeMap_selects_encode (decodeWord op) h
  rwa [(decodeWord_encodesAs op).2] at this

theorem opcodeMap_number_inj : ∀ r ∈ opcodeMap, ∀ q ∈ opcodeMap, r.number = q.number → r = q := by decide

theorem opcodeMap_number_ne : ∀ r ∈ opcodeMap, r.number ≠ 35 := by decide

/-- Settles O3: the row of the decoded instruction is the one that selects the opcode, and its number determines it. -/
theorem decoderFollowsOpcodeMap : Obligations.DecoderFollowsOpcodeMap := by
  intro op
  refine ⟨fun r hr => ⟨row_decodeWord_of_selects hr, fun hrow => ?_⟩, fun r hr q hq hselr hselq => ?_,
    fun hnone => ?_, fun hrow r hr hsel => ?_⟩
  · obtain ⟨q, hq, hnumber, hsel⟩ := opcodeMap_selects_of_row (hrow ▸ opcodeMap_number_ne r hr)
    rwa [opcodeMap_number_inj r hr q hq (hrow.symm.trans hnumber.symm)]
  · exact opcodeMap_number_inj r hr q hq
      ((row_decodeWord_of_selects hr hselr).symm.trans (row_decodeWord_of_selects hq hselq))
  · by_contra hrow
    obtain ⟨r, hr, -, hsel⟩ := opcodeMap_selects_of_row hrow
    exact hnone r hr hsel
  · exact opcodeMap_number_ne r hr ((row_decodeWord_of_selects hr hsel).symm.trans hrow)

end Sys2Proof

/-! Proofs of the flow family (40_flow.md): the step tick and its fetch, control transfer, skips, the no-op, and the
random byte. -/

namespace Sys2Proof.Machine

/-! ### The step tick (R100) -/

/-- The step tick runs what the two bytes at `PC` decode to. -/
theorem State.stepTick_of_decode {s : State} {i : Instr} (hfault : s.fault = .none) (hpc : s.pc.toNat ≤ 4094)
    (hdecode : decode [s.readByte s.pc.toNat, s.readByte (s.pc.toNat + 1)] = .ok (i, [])) :
    s.stepTick = exec i s := by
  have hop : decodeWord s.fetchOp = i := congrArg Prod.fst (Except.ok.inj hdecode)
  rw [State.stepTick_exec hfault hpc, hop]

/-- `StepTick(r)` answers what the step tick with `r` as the random byte answers, the byte still to come put back. -/
theorem applyEvent_stepTick_of_next {s t : State} {r : Byte} (h : State.stepTick { s with rnd := r } = .next t) :
    applyEvent (.stepTick r) s = .next { t with rnd := s.rnd, draws := s.draws } :=
  (State.stepTickWith_eq_onNext s r).trans (congrArg (onNext _) h)

theorem applyEvent_stepTick_of_decode {s t : State} {i : Instr} {r : Byte} (hfault : s.fault = .none)
    (hpc : s.pc.toNat ≤ 4094)
    (hdecode : decode [s.readByte s.pc.toNat, s.readByte (s.pc.toNat + 1)] = .ok (i, []))
    (hexec : exec i { s with rnd := r } = .next t) :
    applyEvent (.stepTick r) s = .next { t with rnd := s.rnd, draws := s.draws } :=
  applyEvent_stepTick_of_next
    ((State.stepTick_of_decode (s := { s with rnd := r }) hfault hpc hdecode).trans hexec)

/-- Settles O6: the schedule decides which of the two forms of the step tick runs the decoded instruction. -/
theorem stepRunsDecodedInstruction : Obligations.StepRunsDecodedInstruction := by
  intro s i hfault hpc hdecode
  refine ⟨fun hpending hlater => ?_, fun r t => applyEvent_stepTick_of_decode hfault hpc hdecode,
    fun r rest t hpending hexec => ?_⟩
  · exact (step_idle hpending hlater).trans (State.stepTick_of_decode hfault hpc hdecode)
  · exact (step_pending hpending).trans
      (applyEvent_stepTick_of_decode (s := { s with pending := rest }) hfault hpc hdecode hexec)

theorem applyEvent_stepTick_fetchOob {s : State} (hfault : s.fault = .none) (hpc : 4094 < s.pc.toNat) (r : Byte) :
    applyEvent (.stepTick r) s = .next { s with fault := .memoryOob } :=
  applyEvent_stepTick_of_next (State.stepTick_fetchOob (s := { s with rnd := r }) hfault hpc)

/-- Settles O7: the fetch check stops both forms of the step tick, and so the step that takes either. -/
theorem fetchBeyondMemoryFaults : Obligations.FetchBeyondMemoryFaults := by
  intro s hfault hpc
  have htick := State.stepTick_fetchOob hfault hpc
  refine ⟨htick, applyEvent_stepTick_fetchOob hfault hpc, fun hpending hlater => ?_, fun r rest hpending => ?_⟩
  · exact (step_idle hpending hlater).trans htick
  · exact (step_pending hpending).trans
      (applyEvent_stepTick_fetchOob (s := { s with pending := rest }) hfault hpc r)

/-! ### Return, jump, call, indexed jump (R101 to R104) -/

theorem decodeWord_of_eq_encode {op : Word} {i : Instr} (h : op = encode i) (hwf : i.wf = true) :
    decodeWord op = i := by
  rw [h, decodeWord_encode i hwf]

/-- Settles O11: twelve bits, zero-extended, lose nothing. -/
theorem jumpSetsPc : Obligations.JumpSetsPc := fun nnn s =>
  ⟨decodeWord_of_eq_encode (opNNN_eq 0x1 nnn) rfl, _, rfl, by simp; omega, onlyPc_setPc s _⟩

/-- Settles O12: with room on the stack the push is exact. -/
theorem callPushesReturnAddress : Obligations.CallPushesReturnAddress := by
  intro nnn s hroom
  refine ⟨decodeWord_of_eq_encode (opNNN_eq 0x2 nnn) rfl, _, execCall_of_not_full hroom.ne nnn, ?_, ?_,
    fun j hj => ?_, sameBytes_of_mem rfl rfl, rfl⟩
  · simp; omega
  · simp; omega
  · simp [Vector.getElem_setIfInBounds, eq_comm]

/-- Settles O13: `SP - 1` is the newest slot. -/
theorem returnPopsNewestEntry : Obligations.ReturnPopsNewestEntry := by
  intro s j hj hsp
  have hlive : s.sp.val ≠ 0 := by omega
  refine ⟨by decide, _, execRet_of_not_empty hlive, ?_, ?_, sameBytes_of_mem rfl rfl, rfl⟩
  · simp [hsp]
  · simp [hsp]

/-- Settles O14: the slot the call fills is the one the return reads. -/
theorem returnAfterCallRestoresPc : Obligations.ReturnAfterCallRestoresPc := by
  intro nnn s t u hroom hcall husp hustk
  obtain ⟨-, t', hcall', -, htsp, htstk, -⟩ := callPushesReturnAddress nnn s hroom
  obtain rfl : t' = t := Host.Outcome.next.inj (hcall'.symm.trans hcall)
  obtain ⟨-, w, hret, hwpc, hwsp, -⟩ :=
    returnPopsNewestEntry u s.sp.val hroom ((congrArg Fin.val husp).trans htsp)
  have hpushed : t'.stk[s.sp.val] = s.pc + 2 := (htstk _ hroom).trans (if_pos rfl)
  exact ⟨w, hret, hwpc.trans (hustk.trans hpushed), Fin.ext hwsp⟩

/-- The sum of R104 fits 16 bits. -/
theorem toNat_jumpTarget (nnn : BitVec 12) (w : Byte) :
    (nnn.setWidth 16 + w.setWidth 16 : Word).toNat = nnn.toNat + w.toNat := by bv_omega

theorem State.jumpOffset_v0 {s : State} (h : s.cfg.qJumpOffset = .v0) (nnn : BitVec 12) :
    s.jumpOffset nnn = s.v[(0 : Reg)] := by
  simp [State.jumpOffset, h]

theorem offsetReg_eq {nnn : BitVec 12} {x : Reg} (h : x.val = nnn.toNat / 256) : offsetReg nnn = x := by
  apply Fin.ext
  simp [offsetReg, h, Nat.shiftRight_eq_div_pow]
  omega

theorem State.jumpOffset_vx {s : State} {nnn : BitVec 12} {x : Reg} (h : s.cfg.qJumpOffset = .vx)
    (hx : x.val = nnn.toNat / 256) : s.jumpOffset nnn = s.v[x] := by
  simp [State.jumpOffset, h, offsetReg_eq hx]

/-- Settles O15: the exact sum, with the register that the quirk selects. -/
theorem jumpWithOffsetAddsRegister : Obligations.JumpWithOffsetAddsRegister := by
  intro nnn x s hx
  refine ⟨decodeWord_of_eq_encode (opNNN_eq 0xB nnn) rfl, _, rfl, fun hq => ?_, fun hq => ?_, onlyPc_setPc s _⟩
  · rw [State.setPc_pc, toNat_jumpTarget, State.jumpOffset_v0 hq]
  · rw [State.setPc_pc, toNat_jumpTarget, State.jumpOffset_vx hq hx]

/-! ### Skips (R105 to R108) -/

theorem onlyPc_skipIf_eq (s : State) (a b : Byte) :
    onlyPc s (s.advance.skipIf (a == b)) (if a = b then s.pc + 4 else s.pc + 2) := by
  simpa using onlyPc_skipIf s (a == b)

theorem onlyPc_skipIf_ne (s : State) (a b : Byte) :
    onlyPc s (s.advance.skipIf (a != b)) (if a ≠ b then s.pc + 4 else s.pc + 2) := by
  simpa using onlyPc_skipIf s (a != b)

/-- Settles O16: the frame of a skip, with the immediate as the second operand. -/
theorem immediateSkips : Obligations.ImmediateSkips := fun x kk s =>
  ⟨decodeWord_of_eq_encode (opXKK_eq 0x3 x kk) rfl, decodeWord_of_eq_encode (opXKK_eq 0x4 x kk) rfl,
    ⟨_, rfl, onlyPc_skipIf_eq s s.v[x] kk⟩, ⟨_, rfl, onlyPc_skipIf_ne s s.v[x] kk⟩⟩

/-- Settles O17: the frame of a skip, with a register as the second operand. -/
theorem registerSkips : Obligations.RegisterSkips := fun x y s =>
  ⟨decodeWord_of_eq_encode (opXY_eq 0x5 0x0 x y) rfl, decodeWord_of_eq_encode (opXY_eq 0x9 0x0 x y) rfl,
    ⟨_, rfl, onlyPc_skipIf_eq s s.v[x] s.v[y]⟩, ⟨_, rfl, onlyPc_skipIf_ne s s.v[x] s.v[y]⟩⟩

/-! ### The no-op (R109) -/

/-- The thirty-fifth row does nothing after the fetch advance. -/
theorem exec_of_row_noOp {i : Instr} (h : i.row = 35) (s : State) : exec i s = .next s.advance := by
  cases i with
  | nop0 _ | nop5 _ | nop8 _ | nop9 _ | nopE _ | nopF _ => rfl
  | _ => simp [Instr.row] at h

theorem row_of_mem_noOps (low : BitVec 12) :
    ∀ i ∈ [Instr.nop0 low, .nop5 low, .nop8 low, .nop9 low, .nopE low, .nopF low], i.row = 35 := by
  simp [Instr.row]

/-- Settles O18: an opcode that selects no row decodes to the thirty-fifth. -/
theorem unmatchedOpcodesAreNoOps : Obligations.UnmatchedOpcodesAreNoOps := by
  refine ⟨fun op s hnone => ?_, fun low s i hi => ?_⟩
  · have hrow : (decodeWord op).row = 35 := (decoderFollowsOpcodeMap op).2.2.mp hnone
    exact ⟨_, exec_of_row_noOp hrow s, onlyPc_advance s⟩
  · exact ⟨_, exec_of_row_noOp (row_of_mem_noOps low i hi) s, onlyPc_advance s⟩

/-! ### The random byte (R100, 41_alu.md R132) -/

/-- Settles O26: an instruction other than Cxkk commutes with a change of the random byte. -/
theorem randomByteMattersOnlyToRnd : Obligations.RandomByteMattersOnlyToRnd := fun _ _ _ r hne h =>
  exec_mapHidden (slots := id) (byte := fun _ => r) (.inl rfl) (.inr hne) h

end Sys2Proof.Machine

/-! Proofs of the arithmetic family (41_alu.md): loads, addition, logic, subtraction, shifts, and the random draw. -/

namespace Sys2Proof.Machine

/-! ### A register write, and a register and the flag written -/

theorem State.getElem_setReg_self (s : State) (x : Reg) (w : Byte) : (s.setReg x w).v[x] = w :=
  (State.getElem_setReg s x x w).trans (if_pos rfl)

/-- The frame of a register write, the value named by the register it is in. -/
theorem onlyReg_setReg_self (s : State) (x : Reg) (w : Byte) :
    onlyReg s (s.advance.setReg x w) x (s.advance.setReg x w).v[x] := by
  rw [State.getElem_setReg_self]
  exact onlyReg_setReg s x w

/-- The flag first, the result last (R120): the result stands whatever `x` is. -/
theorem flagThenResult_frame (s : State) (x : Reg) (w : Byte) (b : Bool) :
    ∃ t, flagThenResult s x w b = .next t ∧ t.v[x] = w ∧ (x ≠ Reg.vf → t.v[Reg.vf] = if b then 1 else 0) ∧
      onlyRegs s t (fun r => r = x ∨ r = Reg.vf) := by
  obtain ⟨t, hnext, hresult, hflag, hother, hframe⟩ := flagThenResult_eq s x w b
  exact ⟨t, hnext, hresult, hflag, onlyRegs_of hother hframe⟩

/-! ### Loads, addition of an immediate, logic (R121 to R126) -/

/-- Settles O19: the frame of a register write, twice. -/
theorem loadsIntoRegister : Obligations.LoadsIntoRegister := fun x y kk s =>
  ⟨decodeWord_of_eq_encode (opXKK_eq 0x6 x kk) rfl, decodeWord_of_eq_encode (opXY_eq 0x8 0x0 x y) rfl,
    ⟨_, rfl, onlyReg_setReg s x kk⟩, ⟨_, rfl, onlyReg_setReg s x s.v[y]⟩⟩

/-- Settles O20: the addition of bytes is that of numbers mod 256. -/
theorem addImmediateWraps : Obligations.AddImmediateWraps := by
  refine fun x kk s => ⟨decodeWord_of_eq_encode (opXKK_eq 0x7 x kk) rfl, _, rfl, ?_, onlyReg_setReg_self s x _⟩
  rw [State.getElem_setReg_self, BitVec.toNat_add]

/-- Settles O21: each operation is that of the bits. -/
theorem logicWritesNoFlag : Obligations.LogicWritesNoFlag := by
  refine fun x y s => ⟨decodeWord_of_eq_encode (opXY_eq 0x8 0x1 x y) rfl,
    decodeWord_of_eq_encode (opXY_eq 0x8 0x2 x y) rfl, decodeWord_of_eq_encode (opXY_eq 0x8 0x3 x y) rfl,
    ⟨_, rfl, onlyReg_setReg_self s x _, fun b _ => ?_⟩, ⟨_, rfl, onlyReg_setReg_self s x _, fun b _ => ?_⟩,
    ⟨_, rfl, onlyReg_setReg_self s x _, fun b _ => ?_⟩⟩
  · rw [State.getElem_setReg_self, BitVec.getLsbD_or]
  · rw [State.getElem_setReg_self, BitVec.getLsbD_and]
  · rw [State.getElem_setReg_self, BitVec.getLsbD_xor]

/-! ### Addition and subtraction with a flag (R127, R128, R130) -/

theorem ite_carryFlag (a b : Byte) :
    (if carryFlag a b then 1 else 0 : Byte) = if a.toNat + b.toNat > 255 then 1 else 0 := by
  simp only [carryFlag, decide_eq_true_eq]

theorem ite_greaterFlag (a b : Byte) :
    (if greaterFlag a b then 1 else 0 : Byte) = if a.toNat > b.toNat then 1 else 0 := by
  simp only [greaterFlag, decide_eq_true_eq]

theorem toNat_byte_sub (a b : Byte) : (a - b).toNat = (a.toNat + 256 - b.toNat) % 256 := by bv_omega

/-- Settles O22: the flag written last is the carry, and the result is the sum when `x` is not VF. -/
theorem addWritesCarryLast : Obligations.AddWritesCarryLast := by
  intro x y s
  obtain ⟨t, hnext, hflag, hresult, hother, hframe⟩ :=
    resultThenFlag_eq s x (s.v[x] + s.v[y]) (carryFlag s.v[x] s.v[y])
  refine ⟨decodeWord_of_eq_encode (opXY_eq 0x8 0x4 x y) rfl, t, hnext, hflag.trans (ite_carryFlag _ _),
    fun hx => ?_, onlyRegs_of hother hframe⟩
  rw [hresult hx, BitVec.toNat_add]

/-- 8xy5 and 8xy7 differ in which operand is the minuend `a`. -/
theorem flagThenResult_sub (s : State) (x : Reg) (a b : Byte) :
    ∃ t, flagThenResult s x (a - b) (greaterFlag a b) = .next t ∧ t.v[x].toNat = (a.toNat + 256 - b.toNat) % 256 ∧
      (x ≠ Reg.vf → t.v[Reg.vf] = if a.toNat > b.toNat then 1 else 0) ∧
      onlyRegs s t (fun r => r = x ∨ r = Reg.vf) := by
  obtain ⟨t, hnext, hresult, hflag, hframe⟩ := flagThenResult_frame s x (a - b) (greaterFlag a b)
  exact ⟨t, hnext, by rw [hresult, toNat_byte_sub], fun hx => (hflag hx).trans (ite_greaterFlag a b), hframe⟩

/-- Settles O23: one subtraction, with the operands in either order. -/
theorem subtractWritesResultLast : Obligations.SubtractWritesResultLast := fun x y s =>
  ⟨decodeWord_of_eq_encode (opXY_eq 0x8 0x5 x y) rfl, decodeWord_of_eq_encode (opXY_eq 0x8 0x7 x y) rfl,
    flagThenResult_sub s x s.v[x] s.v[y], flagThenResult_sub s x s.v[y] s.v[x]⟩

/-! ### Shifts (R129, R131) -/

theorem State.shiftSource_eq (s : State) (x y : Reg) :
    s.shiftSource x y = if s.cfg.qShiftSrc = .vy then s.v[y] else s.v[x] := by
  unfold State.shiftSource
  cases s.cfg.qShiftSrc <;> rfl

theorem toNat_byte_shiftRight_one (w : Byte) : (w >>> 1).toNat = w.toNat / 2 := by
  rw [BitVec.toNat_ushiftRight, Nat.shiftRight_eq_div_pow, pow_one]

theorem toNat_byte_shiftLeft_one (w : Byte) : (w <<< 1).toNat = 2 * w.toNat % 256 := by
  rw [BitVec.toNat_shiftLeft, Nat.shiftLeft_eq, pow_one, mul_comm]

theorem toNat_ite_bit (b : Bool) : (if b then 1 else 0 : Byte).toNat = b.toNat := by cases b <;> rfl

/-- The bit shifted out on the right. -/
theorem toNat_shrFlag (w : Byte) : (shrFlag w).toNat = w.toNat % 2 := by
  rw [shrFlag, BitVec.getLsbD, Nat.toNat_testBit, pow_zero, Nat.div_one]

/-- The bit shifted out on the left. -/
theorem toNat_shlFlag (w : Byte) : (shlFlag w).toNat = w.toNat / 128 := by
  rw [shlFlag, BitVec.getLsbD, Nat.toNat_testBit]
  omega

/-- Result and flag as the numbers they are. -/
theorem flagThenResult_toNat (s : State) (x : Reg) {w : Byte} {b : Bool} {m n : Nat} (hw : w.toNat = m)
    (hb : b.toNat = n) :
    ∃ t, flagThenResult s x w b = .next t ∧ t.v[x].toNat = m ∧ (x ≠ Reg.vf → t.v[Reg.vf].toNat = n) ∧
      onlyRegs s t (fun r => r = x ∨ r = Reg.vf) := by
  obtain ⟨t, hnext, hresult, hflag, hframe⟩ := flagThenResult_frame s x w b
  refine ⟨t, hnext, ?_, fun hx => ?_, hframe⟩
  · rw [hresult, hw]
  · rw [hflag hx, toNat_ite_bit, hb]

/-- Settles O24: both shifts of the source that the quirk selects. -/
theorem shiftsMoveOneBit : Obligations.ShiftsMoveOneBit := by
  intro x y s src hsrc
  obtain rfl : src = s.shiftSource x y := hsrc.trans (s.shiftSource_eq x y).symm
  exact ⟨decodeWord_of_eq_encode (opXY_eq 0x8 0x6 x y) rfl, decodeWord_of_eq_encode (opXY_eq 0x8 0xE x y) rfl,
    flagThenResult_toNat s x (toNat_byte_shiftRight_one _) (toNat_shrFlag _),
    flagThenResult_toNat s x (toNat_byte_shiftLeft_one _) (toNat_shlFlag _)⟩

/-! ### The random draw (R132) -/

/-- Settles O25: a register write, after which the next byte is drawn. -/
theorem randomIsMaskedDraw : Obligations.RandomIsMaskedDraw := by
  intro x kk s
  obtain ⟨hresult, hother, hbytes, -⟩ := onlyReg_setReg s x (s.rnd &&& kk)
  refine ⟨decodeWord_of_eq_encode (opXKK_eq 0xC x kk) rfl, _, rfl, hresult, hother, fun b _ hclear => ?_, hbytes, rfl⟩
  rw [State.refreshRnd_v, hresult, BitVec.getLsbD_and, hclear, Bool.and_false]

end Sys2Proof.Machine

/-! Proofs of the index and memory family (42_index_memory.md): the index register, the decimal digits, and the register
block stored and loaded. -/

namespace Sys2Proof.Machine

/-! ### Load, addition and glyph address (R140 to R142) -/

/-- Settles O27: twelve bits, zero-extended, lose nothing. -/
theorem loadIndexZeroExtends : Obligations.LoadIndexZeroExtends := fun nnn _ =>
  ⟨decodeWord_of_eq_encode (opNNN_eq 0xA nnn) rfl, _, rfl, BitVec.toNat_setWidth_of_le (by decide),
    sameBytes_of_mem rfl rfl, rfl⟩

theorem toNat_add_setWidth_byte (i : Word) (w : Byte) :
    (i + w.setWidth 16).toNat = (i.toNat + w.toNat) % 65536 := by
  rw [BitVec.toNat_add, BitVec.toNat_setWidth_of_le (by decide)]

/-- Settles O28: under either value of the quirk the sum is the same, and only ON writes a register, VF. -/
theorem addIndexWrapsAt16Bits : Obligations.AddIndexWrapsAt16Bits := by
  intro x s
  refine ⟨decodeWord_of_eq_encode (opX_eq 0xF x 0x1E) rfl, ?_⟩
  cases hq : s.cfg.qAddiVf with
  | off =>
    exact ⟨_, execAddI_off hq x, toNat_add_setWidth_byte _ _, fun _ => rfl, nofun, fun _ _ => rfl,
      sameBytes_of_mem rfl rfl, rfl⟩
  | on =>
    refine ⟨_, execAddI_on hq x, toNat_add_setWidth_byte _ _, nofun, fun _ => ?_,
      fun r hr => State.getElem_setVF_of_ne hr _, sameBytes_of_mem rfl rfl, rfl⟩
    simp only [State.setVF_vf, indexOverflowFlag, decide_eq_true_eq]

/-- A number that fits the width is kept. -/
theorem toNat_ofNat_of_lt {w n : Nat} (h : n < 2 ^ w) : (BitVec.ofNat w n).toNat = n :=
  (BitVec.toNat_ofNat n w).trans (Nat.mod_eq_of_lt h)

/-- The greatest glyph address is 0x54B, so nothing is lost in 16 bits. -/
theorem toNat_glyphAddr (w : Byte) : (glyphAddr w).toNat = 0x50 + 5 * w.toNat :=
  toNat_ofNat_of_lt (by have := w.isLt; simp only [fontBase, glyphBytes]; omega)

/-- Settles O29: the glyph address as a number. -/
theorem glyphAddressIsUnmasked : Obligations.GlyphAddressIsUnmasked := fun x s =>
  ⟨decodeWord_of_eq_encode (opX_eq 0xF x 0x29) rfl, _, rfl, toNat_glyphAddr s.v[x], sameBytes_of_mem rfl rfl, rfl⟩

/-- Settles O30: memory is as it was, and the font region of a memory that lists nothing reads as `FONT`. -/
theorem glyphAddressPointsAtFont : Obligations.GlyphAddressPointsAtFont := by
  intro x s j k hmem _ _ hj
  obtain ⟨-, t, hexec, hi, hbytes, -⟩ := glyphAddressIsUnmasked x s
  refine ⟨t, hexec, ?_⟩
  rw [hbytes, hi, Nat.add_assoc, ← hj]
  exact State.readByte_font_of_mem_nil hmem j.val j.isLt

/-! ### What a store of several bytes changes -/

theorem State.readByte_writeBytes_inside (s : State) (a k : Nat) {ws : List Byte} (hk : k < ws.length) :
    (s.writeBytes a ws).readByte (a + k) = ws[k] := by
  simp [State.readByte_writeBytes, hk]

theorem State.readByte_writeBytes_outside (s : State) {a b : Nat} {ws : List Byte}
    (h : ¬(a ≤ b ∧ b < a + ws.length)) : (s.writeBytes a ws).readByte b = s.readByte b :=
  (State.readByte_writeBytes s a b ws).trans (dif_neg h)

/-- A store changes memory alone. -/
theorem State.writeBytes_frame (s : State) (a : Nat) (ws : List Byte) :
    s.writeBytes a ws = { s with mem := (s.writeBytes a ws).mem } := by
  induction ws generalizing s a with
  | nil => rfl
  | cons w ws ih => exact ih (s.writeByte a w) (a + 1)

/-! ### Decimal digits (R143) -/

theorem exec_ldB_of_in_bounds {s : State} (h : s.i.toNat + 2 ≤ 4095) (x : Reg) :
    exec (.ldB x) s = .next (s.advance.writeBytes s.i.toNat (bcdDigits s.v[x])) :=
  accessOrRaise_next s _ 3 (.inr (Nat.succ_le_succ h))

/-- The three digits of a byte, read back where they were stored. -/
theorem State.toNat_readByte_writeBytes_bcdDigits (s : State) (a : Nat) (w : Byte) :
    ((s.writeBytes a (bcdDigits w)).readByte a).toNat = w.toNat / 100 ∧
      ((s.writeBytes a (bcdDigits w)).readByte (a + 1)).toNat = w.toNat / 10 % 10 ∧
      ((s.writeBytes a (bcdDigits w)).readByte (a + 2)).toNat = w.toNat % 10 := by
  have hw : w.toNat < 256 := w.isLt
  have hread (k : Nat) (hk : k < 3) := State.readByte_writeBytes_inside s a k (ws := bcdDigits w) hk
  refine ⟨(congrArg BitVec.toNat (hread 0 (by decide))).trans ?_,
    (congrArg BitVec.toNat (hread 1 (by decide))).trans ?_,
    (congrArg BitVec.toNat (hread 2 (by decide))).trans ?_⟩ <;>
  exact toNat_ofNat_of_lt (by omega)

/-- Settles O31: the three stored bytes are the digits, and the digits make up the number. -/
theorem bcdStoresThreeDigits : Obligations.BcdStoresThreeDigits := by
  intro x s hin
  obtain ⟨hhundreds, htens, hones⟩ := State.toNat_readByte_writeBytes_bcdDigits s.advance s.i.toNat s.v[x]
  refine ⟨decodeWord_of_eq_encode (opX_eq 0xF x 0x33) rfl, _, exec_ldB_of_in_bounds hin x, hhundreds, htens, hones,
    ?_, fun a ha => State.readByte_writeBytes_outside s.advance ?_, rfl⟩
  · rw [hhundreds, htens, hones]
    omega
  · exact fun ⟨hlo, hhi⟩ => ha ⟨hlo, Nat.le_of_lt_succ hhi⟩

/-! ### The register block (R144, R145) -/

theorem State.toNat_indexAfter_inc {s : State} {n : Nat} (hq : s.cfg.qMemInc = .inc) (hn : s.i.toNat + n < 65536) :
    (s.indexAfter n).toNat = s.i.toNat + n := by
  rw [State.indexAfter, hq]
  exact toNat_ofNat_of_lt hn

theorem State.indexAfter_noinc {s : State} (hq : s.cfg.qMemInc = .noinc) (n : Nat) : s.indexAfter n = s.i := by
  rw [State.indexAfter, hq]

/-- Settles O32: the block is stored, its length is `x + 1`, and `I` is as the quirk has it. -/
theorem storeRegistersBlock : Obligations.StoreRegistersBlock := by
  intro x s hin
  have hlen : (s.firstRegs (x.val + 1)).length = x.val + 1 := State.length_firstRegs s _ x.isLt
  refine ⟨decodeWord_of_eq_encode (opX_eq 0xF x 0x55) rfl, _, exec_stRegs_of_in_bounds hin,
    fun j hj => State.readByte_writeBytes_firstRegs s.advance s.i.toNat hj,
    fun a ha => State.readByte_writeBytes_outside s.advance ?_,
    fun hq => State.toNat_indexAfter_inc hq (by omega), fun hq => State.indexAfter_noinc hq _, ?_⟩
  · omega
  · exact congrArg (State.setI · _) (State.writeBytes_frame s.advance _ _)

theorem exec_ldRegs_of_in_bounds {x : Reg} {s : State} (h : s.i.toNat + x.val ≤ 4095) :
    exec (.ldRegs x) s =
      .next ({ s.advance with v := s.loadRegs s.i.toNat (x.val + 1) }.setI (s.indexAfter (x.val + 1))) :=
  accessOrRaise_next s _ _ (.inr (Nat.succ_le_succ h))

/-- Settles O33: register by register, the block is loaded up to `x` and left alone above. -/
theorem loadRegistersBlock : Obligations.LoadRegistersBlock := by
  intro x s hin
  have hreg (j : Reg) := State.getElem_loadRegs s s.i.toNat (x.val + 1) j.val j.isLt
  exact ⟨decodeWord_of_eq_encode (opX_eq 0xF x 0x65) rfl, _, exec_ldRegs_of_in_bounds hin,
    fun j hj => (hreg j).trans (if_pos (Nat.lt_succ_of_le hj)),
    fun j hj => (hreg j).trans (if_neg (Nat.not_lt.mpr hj)), sameBytes_of_mem rfl rfl,
    fun hq => State.toNat_indexAfter_inc hq (by omega), fun hq => State.indexAfter_noinc hq _, rfl⟩

/-- Settles O34: the load reads the bytes that the store left. -/
theorem storeThenLoadRestoresRegisters : Obligations.StoreThenLoadRestoresRegisters := by
  intro x s t u hin hstore hmem hcfg hi
  obtain ⟨-, t', hstore', hstored, -⟩ := storeRegistersBlock x s hin
  obtain rfl : t' = t := Host.Outcome.next.inj (hstore'.symm.trans hstore)
  obtain ⟨-, w, hload, hloaded, habove, -⟩ := loadRegistersBlock x u (hi ▸ hin)
  have hbytes : sameBytes t' u := sameBytes_of_mem hmem hcfg
  refine ⟨w, hload, fun j => ⟨fun hj => ?_, habove j⟩⟩
  rw [hloaded j hj, hi, hbytes, hstored j hj]

end Sys2Proof.Machine

/-! Proofs of the display family (43_display.md): the clear, the sprite draw, and a draw undone by drawing again. -/

namespace Sys2Proof.Machine

/-! ### The clear (R160) -/

/-- Settles O37: the blank display has no set cell, and the rest is as the fetch left it. -/
theorem clearEmptiesDisplay : Obligations.ClearEmptiesDisplay := fun _ =>
  ⟨decodeWord_encode .cls rfl, _, rfl, State.displayOut_of_disp_zero rfl, sameBytes_of_mem rfl rfl, rfl⟩

/-! ### One draw (R161) -/

/-- The blit of Dxyn: the display after it and the collision. -/
def State.drawResult (s : State) (x y : Reg) (n : Fin 16) : Display × Bool :=
  blit s.disp (anchorCol s.v[x]) (anchorRow s.v[y]) (s.readBytes s.i.toNat n.val)

theorem exec_drw_of_in_bounds {n : Fin 16} {s : State} (h : n.val = 0 ∨ s.i.toNat + n.val - 1 ≤ 4095) (x y : Reg) :
    exec (.drw x y n) s =
      .next ({ s.advance with disp := (s.drawResult x y n).1 }.setVF (s.drawResult x y n).2) :=
  accessOrRaise_next s _ n.val (by simp only [memSize]; omega)

theorem flagByte_eq_one_iff (b : Bool) : (if b then 1 else 0 : Byte) = 1 ↔ b = true := by cases b <;> decide

/-- Settles O38: the blit cell by cell, and its collision as the flag. -/
theorem drawFlipsSpriteCells : Obligations.DrawFlipsSpriteCells := by
  rintro x y n s _ _ hin rfl rfl
  refine ⟨decodeWord_of_eq_encode (opXYN_eq 0xD x y n) rfl, _, exec_drw_of_in_bounds hin x y, fun col row => ?_, ?_,
    eq_zero_or_one_of_eq_flag (State.setVF_vf _ _), fun r hr => State.getElem_setVF_of_ne hr _,
    sameBytes_of_mem rfl rfl, rfl⟩
  · exact blit_cell s s.disp _ _ _ _ col.val row.val col.isLt row.isLt
  · rw [State.setVF_vf, flagByte_eq_one_iff]
    exact blit_collision s s.disp _ _ _ _

/-! ### A second draw (95_test_vectors.md S5) -/

/-- A sprite is read from memory alone. -/
theorem State.spritePixel_of_sameBytes {s t : State} (h : sameBytes s t) : t.spritePixel = s.spritePixel := by
  funext a n x0 y0 col row
  rw [State.spritePixel, State.spritePixel, h]

theorem State.disp_ne_zero_iff (s : State) :
    s.disp ≠ 0 ↔ ∃ (col : Fin 64) (row : Fin 32), s.displayOut col row = true := by
  constructor
  · contrapose!
    intro hclear
    refine Display.ext_cell fun col row => ?_
    exact (Bool.eq_false_of_not_eq_true (hclear col row)).trans (BitVec.getLsbD_zero).symm
  · rintro ⟨col, row, hset⟩ hzero
    rw [State.displayOut_of_disp_zero hzero] at hset
    exact Bool.false_ne_true hset

/-- Settles O39: both draws flip the same cells, and on a clear display the first leaves set exactly those it flips. -/
theorem drawTwiceRestoresDisplay : Obligations.DrawTwiceRestoresDisplay := by
  intro x y n s t hx hy hin hdraw
  obtain ⟨-, t', hdraw', hcell, hvf, hbit, hreg, hbytes, hframe⟩ := drawFlipsSpriteCells x y n s _ _ hin rfl rfl
  obtain rfl : t' = t := Host.Outcome.next.inj (hdraw'.symm.trans hdraw)
  have hi : t'.i = s.i := by rw [hframe]
  obtain ⟨-, u, hagain, hcell', hvf', -⟩ := drawFlipsSpriteCells x y n t' _ _ (hi ▸ hin) rfl rfl
  rw [hi, hreg x hx, hreg y hy, State.spritePixel_of_sameBytes hbytes] at hcell' hvf'
  refine ⟨u, hagain, Display.ext_cell fun col row => ?_, fun hclear => ⟨?_, ?_⟩⟩
  · have := hcell' col row
    rwa [hcell, Bool.xor_assoc, Bool.xor_self, Bool.xor_false] at this
  · refine hbit.resolve_right fun hone => ?_
    obtain ⟨col, row, hset, -⟩ := hvf.mp hone
    exact s.disp_ne_zero_iff.mpr ⟨col, row, hset⟩ hclear
  · simp only [State.displayOut_of_disp_zero hclear, Bool.false_xor] at hcell
    simp only [hvf', State.disp_ne_zero_iff, hcell, and_self]

end Sys2Proof.Machine

/-! Proofs of the keypad and timer family (44_keypad_timers.md): the key skips, the wait for a key, and the moves of the
timers. -/

namespace Sys2Proof.Machine

/-! ### The key skips (R170, R171, R176) -/

theorem keySelect_eq {k : Key} {w : Byte} (h : k.val = w.toNat % 16) : keySelect w = k := Fin.ext h.symm

theorem onlyPc_skipIf_not (s : State) (c : Bool) :
    onlyPc s (s.advance.skipIf !c) (if c = false then s.pc + 4 else s.pc + 2) := by
  simpa using onlyPc_skipIf s !c

/-- Settles O40: the frame of a skip, on the flag of the selected key and on its negation. -/
theorem keySkipsTestLowNibble : Obligations.KeySkipsTestLowNibble := by
  intro x k s hk
  obtain rfl := keySelect_eq hk
  exact ⟨decodeWord_of_eq_encode (opX_eq 0xE x 0x9E) rfl, decodeWord_of_eq_encode (opX_eq 0xE x 0xA1) rfl,
    ⟨_, rfl, onlyPc_skipIf s _⟩, ⟨_, rfl, onlyPc_skipIf_not s _⟩⟩

/-! ### The wait for a key (R172) -/

theorem State.lowestKey_eq_none {s : State} (hup : ∀ k : Key, s.key[k] = false) : s.lowestKey = none := by
  obtain ⟨hnone, -⟩ | ⟨k, -, hdown, -⟩ := s.lowestKey_spec
  · exact hnone
  · exact absurd hdown (ne_true_of_eq_false (hup k))

theorem State.lowestKey_eq_some {s : State} {k : Key} (hdown : s.key[k] = true)
    (hbelow : ∀ j : Key, j < k → s.key[j] = false) : s.lowestKey = some k := by
  obtain ⟨-, hup⟩ | ⟨l, hl, hldown, hlbelow⟩ := s.lowestKey_spec
  · exact absurd hdown (ne_true_of_eq_false (hup k))
  · obtain hlt | rfl | hgt := lt_trichotomy k l
    · exact absurd hdown (ne_true_of_eq_false (hlbelow k hlt))
    · exact hl
    · exact absurd hldown (ne_true_of_eq_false (hbelow l hgt))

/-- Settles O41: with no key down the advance is undone, and the lowest key down is the one that is searched for. -/
theorem waitForKeyRepolls : Obligations.WaitForKeyRepolls := by
  intro x s
  refine ⟨decodeWord_of_eq_encode (opX_eq 0xF x 0x0A) rfl,
    fun hup => execLdVxK_of_no_key (State.lowestKey_eq_none hup) x, fun k hdown hbelow => ?_⟩
  refine ⟨_, execLdVxK_of_key (State.lowestKey_eq_some hdown hbelow) x, onlyReg_setReg_self s x _, ?_⟩
  rw [State.getElem_setReg_self]
  exact toNat_ofNat_of_lt (by omega)

/-! ### The moves of the timers (R173 to R175) -/

theorem State.soundOut_iff (s : State) : s.soundOut = true ↔ s.st ≠ 0 := bne_iff_ne

/-- Settles O42: each move writes one element, and the sound follows the sound timer. -/
theorem timerMoves : Obligations.TimerMoves := fun x s =>
  ⟨decodeWord_of_eq_encode (opX_eq 0xF x 0x07) rfl, decodeWord_of_eq_encode (opX_eq 0xF x 0x15) rfl,
    decodeWord_of_eq_encode (opX_eq 0xF x 0x18) rfl, ⟨_, rfl, onlyReg_setReg s x s.dt⟩,
    ⟨_, rfl, rfl, sameBytes_of_mem rfl rfl, rfl⟩,
    ⟨_, rfl, rfl, State.soundOut_iff _, sameBytes_of_mem rfl rfl, rfl⟩⟩

end Sys2Proof.Machine

/-! Proofs of the exceptions family (60_exceptions.md): the fatal conditions, the halted core, the timer tick and the key
events. -/

namespace Sys2Proof.Machine

/-! ### The fatal conditions (R201, R202) -/

/-- Settles O52: a raise changes the latch alone, and an instruction that does not raise answers a next state and keeps
it. -/
theorem exactlyTheListedFaults : Obligations.ExactlyTheListedFaults := fun _ _ =>
  ⟨fun _ => exec_of_raisedBy, fun hr =>
    have ⟨t, ht, hw⟩ := exec_of_not_raised hr
    ⟨t, ht, hw.fault hr⟩⟩

/-! ### A key event (R214) -/

/-- A key event leaves a keypad that is already as it makes it. -/
theorem State.setKey_eq_self {s : State} {k : Key} {down : Bool} (h : s.key[k] = down) : s.setKey k down = s := by
  subst h
  exact congrArg (fun keys => { s with key := keys }) (Vector.set_getElem_self k.isLt)

theorem State.setKey_spec (s : State) (k : Key) (down : Bool) :
    (s.setKey k down).key[k] = down ∧ (∀ j : Key, j ≠ k → (s.setKey k down).key[j] = s.key[j]) ∧
      (s.key[k] = down → s.setKey k down = s) ∧ s.setKey k down = { s with key := (s.setKey k down).key } :=
  ⟨(State.getElem_setKey s k k down).trans (if_pos rfl),
    fun j hj => (State.getElem_setKey s k j down).trans (if_neg hj), State.setKey_eq_self, rfl⟩

/-- Settles O46: a press and a release are the two values of one flag. -/
theorem keyEventsSetOneFlag : Obligations.KeyEventsSetOneFlag := fun k s =>
  ⟨⟨_, rfl, State.setKey_spec s k true⟩, ⟨_, rfl, State.setKey_spec s k false⟩⟩

/-! ### The timer tick (R211, R212) -/

theorem countDown_of_zero {w : Byte} (h : w.toNat = 0) : countDown w = w := if_neg (by omega)

theorem toNat_countDown_add_one {w : Byte} (h : 0 < w.toNat) : (countDown w).toNat + 1 = w.toNat := by
  rw [toNat_countDown, Nat.sub_add_cancel h]

/-- Settles O43: the count of each timer, then what an instruction other than its load leaves alone. -/
theorem timerTickCountsBothDown : Obligations.TimerTickCountsBothDown :=
  ⟨fun _ => ⟨_, rfl, toNat_countDown_add_one, countDown_of_zero, toNat_countDown_add_one, countDown_of_zero,
    sameBytes_of_mem rfl rfl, rfl⟩,
    fun _ _ _ h =>
      have w := exec_writesOnlyNamed h
      ⟨w.dt, w.st⟩⟩

theorem State.soundOut_iff_toNat (s : State) : s.soundOut = true ↔ s.st.toNat ≠ 0 :=
  s.soundOut_iff.trans (not_congr BitVec.toNat_inj).symm

theorem State.soundOut_of_st_zero {s : State} (h : s.st = 0) : s.soundOut = false := by simp [State.soundOut, h]

theorem State.st_timerTick_of_one {s : State} (h : s.st.toNat = 1) : s.timerTick.st = 0 :=
  BitVec.eq_of_toNat_eq (by simp [toNat_countDown, h])

/-- Settles O45: in each case `ST` is known after the event. -/
theorem soundFollowsSoundTimer : Obligations.SoundFollowsSoundTimer := by
  refine ⟨State.soundOut_iff_toNat, fun x s t h => ?_, fun s t h hone => ?_, fun s t h => ?_⟩
  · cases h
    exact State.soundOut_iff_toNat _
  · cases h
    exact ⟨(State.soundOut_iff_toNat s).mpr (by omega), State.soundOut_of_st_zero (State.st_timerTick_of_one hone)⟩
  · cases h
    exact State.soundOut_of_st_zero rfl

/-! ### A core that step ticks leave alone: it is halted, or its run has ended (R204, 70_reset_and_hazards.md R251) -/

/-- The core is halted, or its run has ended normally. -/
def State.stopped (s : State) : Prop := s.fault ≠ .none ∨ s.endedNormally

/-- The address of an instruction that could be fetched is a jump target. -/
theorem setWidth_jumpTarget {pc : Word} (h : pc.toNat ≤ 4094) : (pc.setWidth 12).setWidth 16 = pc := by bv_omega

/-- The word at `PC` of a run that has ended is the jump to `PC`. -/
theorem State.decodeWord_fetchOp_of_endedNormally {s : State} (h : s.endedNormally) :
    decodeWord s.fetchOp = .jp (s.pc.setWidth 12) := by
  obtain ⟨-, hpc, hop⟩ := h
  have henc : encode (.jp (s.pc.setWidth 12)) = 0x1000#16 ||| s.pc := by
    rw [encode, ← opNNN_eq, opNNN, setWidth_jumpTarget hpc]
    rfl
  exact decodeWord_of_eq_encode (hop.trans henc.symm) rfl

theorem State.stepTick_of_endedNormally {s : State} (h : s.endedNormally) : s.stepTick = .next s := by
  have hjump := State.decodeWord_fetchOp_of_endedNormally h
  obtain ⟨hfault, hpc, -⟩ := h
  rw [State.stepTick_exec hfault hpc, hjump, exec, execJp, setWidth_jumpTarget hpc]
  rfl

theorem State.stopped.stepTick_eq {s : State} (h : s.stopped) : s.stepTick = .next s :=
  h.elim State.stepTick_halted State.stepTick_of_endedNormally

theorem State.stopped.applyEvent_stepTick {s : State} (h : s.stopped) (r : Byte) :
    applyEvent (.stepTick r) s = .next s :=
  applyEvent_stepTick_of_next (t := { s with rnd := r }) (State.stopped.stepTick_eq (s := { s with rnd := r }) h)

/-- Settles O8: a step tick leaves a halted core alone, and the three other events do not look at the latch. -/
theorem haltedCoreIgnoresSteps : Obligations.HaltedCoreIgnoresSteps := by
  intro s hs
  have hstopped : s.stopped := .inl hs
  refine ⟨hstopped.stepTick_eq, hstopped.applyEvent_stepTick,
    ⟨_, rfl, toNat_countDown _, toNat_countDown _, rfl⟩, fun k => ?_⟩
  obtain ⟨⟨t, ht, hflag, hother, -, hframe⟩, u, hu, uflag, uother, -, uframe⟩ := keyEventsSetOneFlag k s
  exact ⟨⟨t, ht, hflag, hother, hframe⟩, u, hu, uflag, uother, uframe⟩

/-! ### Both timers after many events (R211, R213, 95_test_vectors.md S9) -/

/-- Each timer of `t` is that of `s` less `n`, floored at 0. -/
def State.timersLess (s : State) (n : Nat) (t : State) : Prop :=
  t.dt.toNat = s.dt.toNat - n ∧ t.st.toNat = s.st.toNat - n

theorem State.timersLess.trans {s t u : State} {m n : Nat} (h : s.timersLess m t) (h' : t.timersLess n u) :
    s.timersLess (m + n) u := by
  obtain ⟨hdt, hst⟩ := h
  obtain ⟨hdt', hst'⟩ := h'
  exact ⟨by omega, by omega⟩

theorem State.timersLess_timerTick (s : State) : s.timersLess 1 s.timerTick := ⟨toNat_countDown _, toNat_countDown _⟩

/-- A timer is one byte. -/
theorem State.timersLess.zero {s t : State} {n : Nat} (h : s.timersLess n t) (hn : 255 ≤ n) : t.dt = 0 ∧ t.st = 0 := by
  obtain ⟨hdt, hst⟩ := h
  exact ⟨by bv_omega, by bv_omega⟩

theorem State.timersLess_iterate_timerTick (s : State) (k : Nat) : s.timersLess k (State.timerTick^[k] s) := by
  induction k with
  | zero => exact ⟨rfl, rfl⟩
  | succ k ih =>
    rw [Function.iterate_succ_apply']
    exact ih.trans (State.timersLess_timerTick _)

theorem State.iterate_timerTick_frame (s : State) (k : Nat) :
    State.timerTick^[k] s = { s with dt := (State.timerTick^[k] s).dt, st := (State.timerTick^[k] s).st } := by
  induction k with
  | zero => rfl
  | succ k ih =>
    rw [Function.iterate_succ_apply', ih]
    rfl

/-- Each of the four interleaved events keeps a core stopped, and the timer tick alone counts its timers down. -/
theorem State.stopped.applyEvent_next {s : State} (h : s.stopped) {e : Event} (he : isInterleaved e = true) :
    ∃ t, applyEvent e s = .next t ∧ t.stopped ∧ s.timersLess (if e = .timerTick then 1 else 0) t := by
  cases e with
  | stepTick r => exact ⟨s, h.applyEvent_stepTick r, h, rfl, rfl⟩
  | timerTick => exact ⟨s.timerTick, rfl, h, State.timersLess_timerTick s⟩
  | keyPress k => exact ⟨s.setKey k true, rfl, h, rfl, rfl⟩
  | keyRelease k => exact ⟨s.setKey k false, rfl, h, rfl, rfl⟩
  | reset | load _ => exact absurd he Bool.false_ne_true

/-- Along a schedule of the interleaved events the timers of a stopped core lose as many as there were timer ticks. -/
theorem State.stopped.runEvents_next {s : State} (h : s.stopped) {σ : Nat → Event}
    (hσ : ∀ n, isInterleaved (σ n) = true) (k : Nat) :
    ∃ t, runEvents σ k s = .next t ∧ t.stopped ∧ s.timersLess (Nat.count (σ · = .timerTick) k) t := by
  refine runEvents_induction (P := fun k t => t.stopped ∧ s.timersLess (Nat.count (σ · = .timerTick) k) t)
    ⟨h, rfl, rfl⟩ (fun k t ⟨hstopped, hless⟩ => ?_) k
  obtain ⟨u, hu, ustopped, uless⟩ := hstopped.applyEvent_next (hσ k)
  rw [Nat.count_succ]
  exact ⟨u, hu, ustopped, hless.trans uless⟩

/-- Along a schedule that is fair to the timer any number of timer ticks comes. -/
theorem exists_le_count_timerTick {σ : Nat → Event} (hfair : fairToTimer σ) (n : Nat) :
    ∃ k, ∀ m, k ≤ m → n ≤ Nat.count (σ · = .timerTick) m := by
  have hinf := Nat.frequently_atTop_iff_infinite.mp (Filter.frequently_atTop.mpr hfair)
  exact ⟨Nat.nth (σ · = .timerTick) n, fun m hm =>
    (Nat.count_nth_of_infinite hinf n).ge.trans (Nat.count_monotone _ hm)⟩

/-- Settles O44: by then 255 timer ticks have come, and a timer is one byte. -/
theorem timersReachZeroAndStay : Obligations.TimersReachZeroAndStay := by
  refine ⟨fun k s => ?_, fun σ s hfair hσ hs => ?_, fun σ s hσ hs k => ?_⟩
  · obtain ⟨hdt, hst⟩ := State.timersLess_iterate_timerTick s k
    exact ⟨hdt, hst, State.iterate_timerTick_frame s k⟩
  · obtain ⟨k, hk⟩ := exists_le_count_timerTick hfair 255
    refine ⟨k, fun m hm => ?_⟩
    obtain ⟨t, ht, -, hless⟩ := State.stopped.runEvents_next hs hσ m
    obtain ⟨hdt, hst⟩ := hless.zero (hk m hm)
    exact ⟨t, ht, hdt, hst, State.soundOut_of_st_zero hst⟩
  · induction k with
    | zero => rfl
    | succ k ih =>
      obtain ⟨r, hr⟩ := hσ k
      rw [runEvents_succ ih, hr]
      exact State.stopped.applyEvent_stepTick hs r

end Sys2Proof.Machine

/-! Proofs of the reset and hazards family (70_reset_and_hazards.md): what a `Load` places and when it is refused, the
steps that answer a next state, and the end of a run. -/

namespace Sys2Proof.Machine

/-! ### The two answers of a `Load` (R241, R242) -/

theorem applyEvent_load_of_fits {rom : List Byte} (h : rom.length ≤ 3584) (s : State) :
    applyEvent (.load rom) s = .next (s.resetEvent.writeBytes 0x200 rom) := if_pos h

theorem applyEvent_load_of_oversize {rom : List Byte} (h : 3584 < rom.length) (s : State) :
    applyEvent (.load rom) s = .refused .romTooLong := if_neg (Nat.not_le.mpr h)

/-- Settles O50: a `Load` that fits is the store of the ROM after `Reset`. -/
theorem loadPlacesRom : Obligations.LoadPlacesRom := by
  intro rom s hfits
  refine ⟨_, _, applyEvent_load_of_fits hfits s, rfl, fun k hk => ?_, fun a ha => ?_, ?_, fun hempty => ?_⟩
  · exact State.readByte_writeBytes_inside s.resetEvent 0x200 k hk
  · exact State.readByte_writeBytes_outside s.resetEvent ha
  · exact State.writeBytes_frame s.resetEvent 0x200 rom
  · rw [hempty, State.writeBytes]

/-- Settles O51: the second answer of a `Load`. -/
theorem oversizeLoadIsRefused : Obligations.OversizeLoadIsRefused := fun _ s hlong =>
  applyEvent_load_of_oversize hlong s

/-! ### Which steps answer a next state (R242, 60_exceptions.md R201, R202) -/

/-- The engine never stops: at a halt and at a failed fetch the answer is a next state too. -/
theorem State.stepTick_next (s : State) : ∃ t, s.stepTick = .next t := by
  by_cases hfault : s.fault = .none
  · by_cases hpc : s.pc.toNat ≤ 4094
    · rw [State.stepTick_exec hfault hpc]
      exact exec_next _ s
    · exact ⟨_, State.stepTick_fetchOob hfault (Nat.not_le.mp hpc)⟩
  · exact ⟨_, State.stepTick_halted hfault⟩

/-- Only a `Load` can be refused, and only one that does not fit. -/
theorem applyEvent_next {e : Event} (he : ∀ rom, e = .load rom → rom.length ≤ 3584) (s : State) :
    ∃ t, applyEvent e s = .next t := by
  cases e with
  | load rom => exact ⟨_, applyEvent_load_of_fits (he rom rfl) s⟩
  | stepTick r =>
    obtain ⟨t, ht⟩ := State.stepTick_next { s with rnd := r }
    exact ⟨_, applyEvent_stepTick_of_next ht⟩
  | reset | timerTick | keyPress _ | keyRelease _ => exact ⟨_, rfl⟩

/-- Settles O10: the step is the model's own step tick or the event that the schedule names. -/
theorem stepRefusesOnlyOversizeLoads : Obligations.StepRefusesOnlyOversizeLoads := by
  intro s
  cases hnext : s.nextScheduled with
  | none =>
    obtain ⟨hpending, hlater⟩ := State.nextScheduled_none hnext
    obtain ⟨t, ht⟩ := State.stepTick_next s
    exact .inl ⟨t, (step_idle hpending hlater).trans ht, fun _ _ hload => absurd hload.symm (Option.some_ne_none _)⟩
  | some scheduled =>
    obtain ⟨e, u⟩ := scheduled
    by_cases hlong : ∃ rom, e = .load rom ∧ 3584 < rom.length
    · obtain ⟨rom, rfl, hlen⟩ := hlong
      exact .inr ⟨rom, u, rfl, hlen, (step_scheduled hnext).trans (applyEvent_load_of_oversize hlen u)⟩
    · have hfits : ∀ rom, e = .load rom → rom.length ≤ 3584 := fun rom he =>
        Nat.not_lt.mp fun hlen => hlong ⟨rom, he, hlen⟩
      obtain ⟨t, ht⟩ := applyEvent_next hfits u
      refine .inl ⟨t, (step_scheduled hnext).trans ht, fun rom v hload => hfits rom ?_⟩
      exact congrArg Prod.fst (Option.some.inj hload)

/-! ### The end of a run (R251) -/

/-- Whether a run has ended depends on neither the timers nor the keypad. -/
theorem State.endedNormally.of_timersAndKeys {s t : State} (hs : s.endedNormally)
    (ht : t = { s with dt := t.dt, st := t.st, key := t.key }) : t.endedNormally := by
  rw [ht]
  exact hs

/-- Settles O56: a step tick leaves a core at its self-jump alone, and the three other events change what the end of a
run does not depend on. -/
theorem selfJumpEndsTheRun : Obligations.SelfJumpEndsTheRun := by
  intro s hs
  refine ⟨State.stepTick_of_endedNormally hs, State.stopped.applyEvent_stepTick (.inr hs), fun e t he ht => ?_⟩
  have hkind : e = .timerTick ∨ isKeyEvent e = true := by
    obtain rfl | ⟨k, rfl⟩ | ⟨k, rfl⟩ := he
    · exact .inl rfl
    · exact .inr rfl
    · exact .inr rfl
  obtain ⟨u, hu, hframe⟩ := applyEvent_timerOrKey hkind s
  obtain rfl : u = t := by simpa using hu.symm.trans ht
  exact ⟨hs.of_timersAndKeys hframe, hframe⟩

end Sys2Proof.Machine
